-- ==== Sys2Proof/Word.lean ====
section
/-! DEFINITION. The widths of the block's registers and words, the channel names, and what the environment
presents to the block (00_scope.md R6, R8; 10_state.md R10; 30_encoding.md R40 to R42). -/

namespace Sys2Proof

/-- A value of the cyclic position counter: `CNT_W` = 7 bits, unsigned (R11). -/
abbrev Pos := BitVec 7

/-- A threshold, and the value on `wr_data` and `rd_data`: `THR_W` = 8 bits, unsigned (R15, R43). -/
abbrev Thr := BitVec 8

/-- A pin level: one bit (R19). -/
abbrev Level := BitVec 1

/-- Format OP: the 12-bit operation word sampled at a rising edge of `clk` (R41). -/
abbrev OpWord := BitVec 12

/-- Format RD: the 1-bit read word on `rd_ch` (R42). -/
abbrev RdWord := BitVec 1

/-- The two channels, which are also the two addresses of the store (R15, R26). -/
inductive Channel where
  | a
  | b
  deriving DecidableEq, Repr, Inhabited

/-- One thing the environment does to the block (R8, R40). -/
inductive Stimulus where
  /-- A rising edge of `clk` at which the input ports spell `w` (R41). -/
  | edge (w : OpWord)
  /-- The host puts `w` on `rd_ch`, between edges (R42). -/
  | read (w : RdWord)
  /-- A rising edge at which an input broke the synchrony duty: the sampled word is unspecified (R89, U15). -/
  | unsync
  deriving DecidableEq, Repr, Inhabited

end Sys2Proof
end

