-- ==== Sys2Proof/Config.lean ====
section
/-! DEFINITION. What is fixed when the block is built (00_scope.md R5, 10_state.md R23), the timing parameters that
no rule of the state reads (70_reset_and_hazards.md R95), and the free values. -/

namespace Sys2Proof

/-- The build arguments of R5, each with the value this hardware takes as its default. -/
structure Config where
  /-- `CYCLE_LENGTH`: ticks per cycle (R5, D16). -/
  cycleLength : Nat := 100
  /-- `ACTIVE_LEVEL`: the pin level that means active, logic low in the source (R5, R58, D15). -/
  activeLevel : Level := 0#1
  deriving DecidableEq, Repr

/-- `INACTIVE_LEVEL = 1 − ACTIVE_LEVEL` (R5, R58, D15). -/
def Config.inactiveLevel (c : Config) : Level := ~~~c.activeLevel

/-- The constraint R5 puts on `CYCLE_LENGTH`: `2 ≤ CYCLE_LENGTH ≤ 2^CNT_W` and `CYCLE_LENGTH ≤ 2^THR_W − 1`. -/
abbrev Config.Legal (c : Config) : Prop :=
  2 ≤ c.cycleLength ∧ c.cycleLength ≤ 2 ^ 7 ∧ c.cycleLength ≤ 2 ^ 8 - 1

/-- The block this model is of: every argument at the value R5 gives (log 8). -/
def Config.build : Config := {}

/-- `TICK_PERIOD` in microseconds: timing only, read by no rule of the state (R5, R95). -/
def Config.tickPeriodMicros : Nat := 100

/-- `F_CLK` in hertz: OPEN, read by no rule (R5, D23, U17); a free value (log 12). -/
opaque Config.clockHertz : Nat

/-- The constraint on `F_CLK`: at least one clock edge per tick period, `1/F_CLK ≤ TICK_PERIOD` (R5, R95). -/
def Config.TimingLegal : Prop := 1000000 ≤ Config.clockHertz * Config.tickPeriodMicros

/-- Cycle time in microseconds: `CYCLE_LENGTH × TICK_PERIOD` (R95). -/
def Config.cycleMicros (c : Config) : Nat := c.cycleLength * Config.tickPeriodMicros

/-- FREE VALUE. What the environment presents once the words placed in the feed are used up (R8, U18; log 2).
The argument is the count of free values drawn before. -/
opaque Config.freeStimulus : Nat → Stimulus

/-- FREE VALUE. The word sampled at an edge whose inputs broke the synchrony duty (R89, U15; log 3). -/
opaque Config.freeOpWord : Nat → OpWord

/-- FREE VALUE. `POS` after power is applied and before the first RESET (R25, U14; log 5). -/
opaque Config.powerOnPos : Pos

/-- FREE VALUE. `THR[c]` after power is applied and before the first RESET (R25, U14; log 5). -/
opaque Config.powerOnThr : Channel → Thr

/-- FREE VALUE. `OUT[c]` after power is applied and before the first RESET (R25, U14; log 5). -/
opaque Config.powerOnOut : Channel → Level

/-- FREE VALUE. The line `rd_ch` when power is applied (log 5). -/
opaque Config.powerOnRdCh : Channel

end Sys2Proof
end

