-- ==== Sys2Proof/Machine/Flags.lean ====
section
/-! DEFINITION. The block has no flags (10_state.md R21); the two booleans it computes are the comparators', combinational
and not kept. Here are the four pure functions of the Cycle Driver (41_cycle_driver.md R55 to R58), for every build. -/

namespace Sys2Proof.Machine

/-- `next(p)`: 0 at and above `CYCLE_LENGTH − 1`, `p + 1` below (R55, D25). -/
def nextPos (c : Config) (p : Pos) : Pos :=
  if c.cycleLength - 1 ≤ p.toNat then 0#7 else p + 1#7

/-- `clamp(t)`: the threshold the comparator uses, at most `CYCLE_LENGTH − 1` (R56). -/
def clamp (c : Config) (t : Thr) : Thr :=
  if c.cycleLength - 1 < t.toNat then BitVec.ofNat 8 (c.cycleLength - 1) else t

/-- `active(p, t) = (zext_8(p) ≤ clamp(t))`, unsigned at 8 bits, inclusive (R57). -/
def active (c : Config) (p : Pos) (t : Thr) : Bool :=
  BitVec.ule (p.setWidth 8) (clamp c t)

/-- `level(a)`: the polarity mapping (R58). -/
def level (c : Config) (a : Bool) : Level :=
  if a then c.activeLevel else c.inactiveLevel

end Sys2Proof.Machine
end

