-- ==== Sys2Proof/Machine/State.lean ====
section
/-! DEFINITION. The block's five registers (10_state.md R10), what the environment has presented and will present
(00_scope.md R8), and the state after reset (R24) and after power-on (R25). -/

namespace Sys2Proof.Machine

/-- The whole state of the block: the tuple `S = (POS, THR[0], THR[1], OUT[0], OUT[1])`, 25 bits (R8, R10). -/
structure Regs where
  /-- `POS`, the cyclic position counter (R11). -/
  pos : Pos
  /-- `THR[0]` = `THR_A` (R15). -/
  thrA : Thr
  /-- `THR[1]` = `THR_B` (R15). -/
  thrB : Thr
  /-- `OUT[0]` = `OUT_A`, which drives `out_a` (R19). -/
  outA : Level
  /-- `OUT[1]` = `OUT_B`, which drives `out_b` (R19). -/
  outB : Level
  deriving DecidableEq, Repr

/-- The block and its environment, as plain data. -/
structure State where
  /-- The block's registers. -/
  regs : Regs
  /-- Whether a RESET has been executed since power was applied (R25, R86; log 4). No register of the block (R22). -/
  live : Bool
  /-- The line `rd_ch`, an input port driven by the host (R40, R42; log 6). -/
  rdCh : Channel
  /-- THE MODEL'S: what the environment presents at the coming steps, oldest first (R8; log 1). -/
  feed : List Stimulus
  /-- THE MODEL'S: how many free values have been drawn (log 2, log 3). -/
  drawn : Nat
  deriving DecidableEq, Repr

/-- Why the machine stops with a fault. -/
inductive Fault where
  /-- Raised by every operation but RESET, before the first RESET: the registers have no value (R25, U14, R86 (1)).
  Safe: the model stops where the hardware goes on from unspecified values (log 4). -/
  | beforeReset
  deriving DecidableEq, Repr

/-- Why an instruction is refused. -/
inductive Refusal where
  /-- Raised by an arm of `exec` whose instruction has no meaning yet; no arm does (safe). -/
  | notModelled (mnemonic : String)
  deriving DecidableEq, Repr

/-- RESET_STATE of R44: the value of every register right after an edge that executes RESET (R24). -/
def Regs.reset (c : Config) : Regs :=
  { pos := 0#7, thrA := 0#8, thrB := 0#8, outA := c.inactiveLevel, outB := c.inactiveLevel }

/-- The machine right after an edge that executed RESET (R24, R85), with nothing presented yet (log 7, log 14). -/
def State.reset : State :=
  { regs := Regs.reset Config.build, live := true, rdCh := .a, feed := [], drawn := 0 }

/-- The machine when power has been applied and no RESET has been executed: the registers hold free values (R25; log 5). -/
def State.powerOn : State :=
  { regs :=
      { pos := Config.powerOnPos
        thrA := Config.powerOnThr .a
        thrB := Config.powerOnThr .b
        outA := Config.powerOnOut .a
        outB := Config.powerOnOut .b }
    live := false
    rdCh := Config.powerOnRdCh
    feed := []
    drawn := 0 }

end Sys2Proof.Machine
end

