-- ==== Sys2Proof/Machine/Operands.lean ====
section
/-! DEFINITION. The store as the block addresses it: direct, by channel, one whole 8-bit entry (20_memory.md R26, R30;
40_store.md R49), and the output registers by channel (10_state.md R19). The number operand `wr_data` needs no assembly:
it is used as it stands (30_encoding.md R43). -/

namespace Sys2Proof.Machine

/-- `StoreRead(c)`: `THR[c]` as it stands (R7, R49). -/
def storeRead (c : Channel) (r : Regs) : Thr :=
  match c with
  | .a => r.thrA
  | .b => r.thrB

/-- `StoreWrite(c, v)`: `THR[c] <- v`, all 8 bits, the other entry untouched (R7, R30, R31). -/
def storeWrite (c : Channel) (v : Thr) (r : Regs) : Regs :=
  match c with
  | .a => { r with thrA := v }
  | .b => { r with thrB := v }

/-- `OUT[c]` (R19). -/
def outReg (c : Channel) (r : Regs) : Level :=
  match c with
  | .a => r.outA
  | .b => r.outB

end Sys2Proof.Machine
end

