-- ==== Sys2Proof/Machine/Ops.lean ====
section
/-! DEFINITION. The shared operations: the tick on the registers, the read port and the pins, and the gate every
operation but RESET stands behind. The block takes no exception and returns from none (60_exceptions.md R74, R80, R81),
so no operation for either stands here. -/

namespace Sys2Proof.Machine

/-- One tick event: advance, then derive both outputs from the NEW position and the thresholds as they stand before the
edge; all writes together (R60, R61, R33). The old outputs are no input (R19). -/
def tickRegs (c : Config) (r : Regs) : Regs :=
  let p := nextPos c r.pos
  { r with
    pos := p
    outA := level c (active c p (storeRead .a r))
    outB := level c (active c p (storeRead .b r)) }

/-- An operation that has a meaning only once a RESET has been executed (R25, R86 (1), U14; log 4). -/
def onLive (s : State) (f : State → State) : Host.Outcome State Fault Refusal :=
  if s.live then .next (f s) else .fault .beforeReset

/-- An operation on the block's registers, which leaves the environment alone. -/
def onRegs (s : State) (f : Regs → Regs) : Host.Outcome State Fault Refusal :=
  onLive s (fun t => { t with regs := f t.regs })

/-- Put a channel on the line `rd_ch`: all that a read word does (R42; log 6). -/
def selectRead (s : State) (c : Channel) : Host.Outcome State Fault Refusal :=
  onLive s (fun t => { t with rdCh := c })

/-- The output port `rd_data = THR[rd_ch]`, combinational, raw (R36, R40, R52). -/
def rdData (s : State) : Thr := storeRead s.rdCh s.regs

/-- The pins: `out_a = OUT[0]`, `out_b = OUT[1]`, no logic between register and pin (R19). -/
def outPin (c : Channel) (s : State) : Level := outReg c s.regs

end Sys2Proof.Machine
end

