-- ==== Sys2Proof/Machine/CycleDriver.lean ====
section
/-! DEFINITION. The operations that contain a tick: TICK, TSETA, TSETB (41_cycle_driver.md R61 to R64). -/

namespace Sys2Proof.Machine

/-- TICK: one tick event, no store write (R61). -/
def execTick (s : State) : Host.Outcome State Fault Refusal :=
  onRegs s (tickRegs Config.build)

/-- TSETA: one tick event, which uses the OLD thresholds, and `THR[0] <- v` (R62, R63). -/
def execTseta (v : Thr) (s : State) : Host.Outcome State Fault Refusal :=
  onRegs s (fun r => storeWrite .a v (tickRegs Config.build r))

/-- TSETB: one tick event, which uses the OLD thresholds, and `THR[1] <- v` (R62, R64). -/
def execTsetb (v : Thr) (s : State) : Host.Outcome State Fault Refusal :=
  onRegs s (fun r => storeWrite .b v (tickRegs Config.build r))

end Sys2Proof.Machine
end

