-- ==== Sys2Proof/Machine/Store.lean ====
section
/-! DEFINITION. The store operations SETA, SETB, GETA, GETB (40_store.md R49 to R53). -/

namespace Sys2Proof.Machine

/-- SETA: `THR[0] <- v`, every `v`, out of range too (R50, R46). -/
def execSeta (v : Thr) (s : State) : Host.Outcome State Fault Refusal :=
  onRegs s (storeWrite .a v)

/-- SETB: `THR[1] <- v` (R51). -/
def execSetb (v : Thr) (s : State) : Host.Outcome State Fault Refusal :=
  onRegs s (storeWrite .b v)

/-- GETA: `rd_ch` = 0, so `rd_data = THR[0]`; no register changes, no clock edge (R52). -/
def execGeta (s : State) : Host.Outcome State Fault Refusal :=
  selectRead s .a

/-- GETB: `rd_ch` = 1, so `rd_data = THR[1]`; no register changes, no clock edge (R53). -/
def execGetb (s : State) : Host.Outcome State Fault Refusal :=
  selectRead s .b

end Sys2Proof.Machine
end

