-- ==== Sys2Proof/Machine/System.lean ====
section
/-! DEFINITION. The system operations RESET and NOP (42_system.md R71, R72). -/

namespace Sys2Proof.Machine

/-- RESET: every register to its reset value, before the first reset too (R71, R85). The ports are not registers. -/
def execReset (s : State) : Host.Outcome State Fault Refusal :=
  .next { s with regs := Regs.reset Config.build, live := true }

/-- NOP: nothing (R72). -/
def execNop (s : State) : Host.Outcome State Fault Refusal :=
  onRegs s id

end Sys2Proof.Machine
end

