-- ==== Sys2Proof/Syntax.lean ====
section
/-! DEFINITION. The nine operations of 30_encoding.md R44, one constructor per row of spec/opcode_table.json. -/

namespace Sys2Proof

/-- An operation. `v` is `wr_data`, taken as it stands (R43). -/
inductive Instr where
  /-- RESET: all state to its reset value (R71). -/
  | reset
  /-- NOP: nothing (R72). -/
  | nop
  /-- SETA: `THR[0] <- v` (R50). -/
  | seta (v : Thr)
  /-- SETB: `THR[1] <- v` (R51). -/
  | setb (v : Thr)
  /-- TICK: advance `POS`, recompute both outputs (R61). -/
  | tick
  /-- TSETA: TICK with the old thresholds, and `THR[0] <- v` (R63). -/
  | tseta (v : Thr)
  /-- TSETB: TICK with the old thresholds, and `THR[1] <- v` (R64). -/
  | tsetb (v : Thr)
  /-- GETA: `rd_data = THR[0]` (R52). -/
  | geta
  /-- GETB: `rd_data = THR[1]` (R53). -/
  | getb
  deriving DecidableEq, Repr

end Sys2Proof
end

