-- ==== Sys2Proof/Machine/Dispatch.lean ====
section
/-! DEFINITION. One arm per operation of 30_encoding.md R44, each a direct call of its meaning. -/

namespace Sys2Proof.Machine

def exec (i : Instr) (s : State) : Host.Outcome State Fault Refusal :=
  match i with
  | .reset => Sys2Proof.Machine.execReset s
  | .nop => Sys2Proof.Machine.execNop s
  | .seta v => Sys2Proof.Machine.execSeta v s
  | .setb v => Sys2Proof.Machine.execSetb v s
  | .tick => Sys2Proof.Machine.execTick s
  | .tseta v => Sys2Proof.Machine.execTseta v s
  | .tsetb v => Sys2Proof.Machine.execTsetb v s
  | .geta => Sys2Proof.Machine.execGeta s
  | .getb => Sys2Proof.Machine.execGetb s

end Sys2Proof.Machine
end

