-- ==== Sys2Proof/WellFormed.lean ====
section
/-! DEFINITION. Which instructions, trace lines and numbered words are well formed. An `Instr` has no ill-formed term:
its operand has exactly the 256 values of `wr_data` and all 4096 OP words and both RD words are legal (30_encoding.md
R46). What can be ill formed is the written form: a line of a trace whose value is no 8-bit value (R47), and a number
too large for the ports it is to be laid on (R41, R42). -/

namespace Sys2Proof

/-- A line of a trace: an operation as R47 spells it, or a pseudo-operation of R48. Values are the written numbers. -/
inductive TraceLine where
  /-- `RESET` -/
  | reset
  /-- `NOP` -/
  | nop
  /-- `TICK` -/
  | tick
  /-- `SET c, v` -/
  | set (c : Channel) (v : Nat)
  /-- `TICK+SET c, v` -/
  | tickSet (c : Channel) (v : Nat)
  /-- `GET c` -/
  | get (c : Channel)
  /-- `TICKS n`: `TICK` repeated n times. -/
  | ticks (n : Nat)
  /-- `CYCLE`: one full cycle of ticks. -/
  | cycle
  /-- `NOPS n`: `NOP` repeated n times. -/
  | nops (n : Nat)
  /-- `INIT a, b`: `RESET`, `SET A, a`, `SET B, b`. -/
  | init (a b : Nat)
  /-- `TICKP k`: `TICK` followed by `NOPS k`. -/
  | tickp (k : Nat)
  deriving DecidableEq, Repr

/-- R47: a written value is "decimal or `0x` hexadecimal, 0 to 255". -/
def valueFits (v : Nat) : Bool := decide (v ≤ 255)

/-- The written values of a line are values of `wr_data` (R47). A repetition count may be any number (R48: `n ≥ 0`). -/
def TraceLine.wellFormed : TraceLine → Bool
  | .reset => true
  | .nop => true
  | .tick => true
  | .set _ v => valueFits v
  | .tickSet _ v => valueFits v
  | .get _ => true
  | .ticks _ => true
  | .cycle => true
  | .nops _ => true
  | .init a b => valueFits a && valueFits b
  | .tickp _ => true

end Sys2Proof
end

