-- ==== Sys2Proof/Decode.lean ====
section
/-! DEFINITION. The decoder and the encoder of 30_encoding.md R41 to R46. Decoding is wiring: the fields of the word are
the input ports, and every word has a meaning, so `decodeOp` and `decodeRd` are total and reject nothing (R46). What
`decode` rejects by name is a stimulus with no word, and a number wider than the port it is laid on. -/

namespace Sys2Proof

/-- Why something is not decoded. -/
inductive DecodeError where
  /-- The word sampled at this edge is unspecified (R89): there is no word to decode. -/
  | noWordSampled
  /-- The number has a bit set that no wire of the port carries (R41, R42). -/
  | wordTooWide
  deriving DecidableEq, Repr

/-- Channel of a channel bit: 0 = A, 1 = B (R26, R40). -/
def channelOfBit (bit : Bool) : Channel := if bit then .b else .a

/-- The channel bit: A = 0, B = 1 (R26, R40). -/
def channelBit : Channel → BitVec 1
  | .a => 0#1
  | .b => 1#1

/-- `rst` = OP[11] (R41). -/
def opRst (w : OpWord) : Bool := w.getLsbD 11

/-- `tick` = OP[10] (R41). -/
def opTick (w : OpWord) : Bool := w.getLsbD 10

/-- `wr_en` = OP[9] (R41). -/
def opWrEn (w : OpWord) : Bool := w.getLsbD 9

/-- `wr_ch` = OP[8] (R41). -/
def opWrCh (w : OpWord) : Channel := channelOfBit (w.getLsbD 8)

/-- `wr_data` = OP[7:0] (R41, R43). -/
def opData (w : OpWord) : Thr := w.extractLsb' 0 8

/-- Format OP (R44). `rst` first, since with `rst = 1` all other bits are ignored (R41, R79). -/
def decodeOp (w : OpWord) : Instr :=
  if opRst w then .reset
  else
    match opTick w, opWrEn w, opWrCh w with
    | false, false, _ => .nop
    | false, true, .a => .seta (opData w)
    | false, true, .b => .setb (opData w)
    | true, false, _ => .tick
    | true, true, .a => .tseta (opData w)
    | true, true, .b => .tsetb (opData w)

/-- Format RD (R42, R44): `rd_ch` selects the entry. -/
def decodeRd (w : RdWord) : Instr :=
  match channelOfBit (w.getLsbD 0) with
  | .a => .geta
  | .b => .getb

/-- The operation a stimulus spells. -/
def decode : Stimulus → Except DecodeError Instr
  | .edge w => .ok (decodeOp w)
  | .read w => .ok (decodeRd w)
  | .unsync => .error .noWordSampled

/-- `OP = {rst, tick, wr_en, wr_ch, wr_data[7:0]}` (R41). -/
def opWord (rst tick wrEn : Bool) (ch : BitVec 1) (data : Thr) : OpWord :=
  BitVec.ofBool rst ++ BitVec.ofBool tick ++ BitVec.ofBool wrEn ++ ch ++ data

/-- The canonical word: every ignored bit is 0 (R45). -/
def encode : Instr → Stimulus
  | .reset => .edge (opWord true false false 0#1 0#8)
  | .nop => .edge (opWord false false false 0#1 0#8)
  | .seta v => .edge (opWord false false true (channelBit .a) v)
  | .setb v => .edge (opWord false false true (channelBit .b) v)
  | .tick => .edge (opWord false true false 0#1 0#8)
  | .tseta v => .edge (opWord false true true (channelBit .a) v)
  | .tsetb v => .edge (opWord false true true (channelBit .b) v)
  | .geta => .read (channelBit .a)
  | .getb => .read (channelBit .b)

/-- The number `w` laid on the port of the format its width names: a row of one byte or less is an RD word (1 wire),
a longer one an OP word (12 wires) (R41, R42; log 10). -/
def tableStimulus (nbits w : Nat) : Except DecodeError Stimulus :=
  if nbits ≤ 8 then
    if w < 2 then .ok (.read (BitVec.ofNat 1 w)) else .error .wordTooWide
  else
    if w < 4096 then .ok (.edge (BitVec.ofNat 12 w)) else .error .wordTooWide

/-- What the decoder reads from an instruction whose bits are `w`, numbered as spec/opcode_table.json numbers them. -/
def decodeTableWord (nbits w : Nat) : Option Instr :=
  match tableStimulus nbits w with
  | .ok x => (decode x).toOption
  | .error _ => none

end Sys2Proof
end

