-- ==== Sys2Proof/Machine/Sample.lean ====
section
/-! DEFINITION. Sampling the ports. The block fetches nothing (10_state.md R14, 20_memory.md R39): the operation comes
from the environment, one word per clock edge (00_scope.md R8). -/

namespace Sys2Proof.Machine

/-- The operation one stimulus gives, and the state with what it used up taken away. At an edge whose inputs broke the
synchrony duty the word is a free value (R89, U15; log 3). -/
def sampleStimulus (x : Stimulus) (s : State) : Instr × State :=
  match x with
  | .edge w => (decodeOp w, s)
  | .read w => (decodeRd w, s)
  | .unsync => (decodeOp (Config.freeOpWord s.drawn), { s with drawn := s.drawn + 1 })

/-- The next operation: the oldest stimulus of the feed, and beyond the feed whatever the environment chooses, a free
value (R8, R96, U18; log 1, log 2). -/
def sample (s : State) : Instr × State :=
  match s.feed with
  | x :: rest => sampleStimulus x { s with feed := rest }
  | [] => sampleStimulus (Config.freeStimulus s.drawn) { s with drawn := s.drawn + 1 }

/-- A word placed at the head of the feed; a number no port can carry places nothing (log 10). -/
def presentWord (nbits w : Nat) (feed : List Stimulus) : List Stimulus :=
  match tableStimulus nbits w with
  | .ok x => x :: feed
  | .error _ => feed

end Sys2Proof.Machine
end

