-- ==== Sys2Proof/Machine/Step.lean ====
section
/-! DEFINITION. One step: sample the ports, run the operation (00_scope.md R8, 20_memory.md R33). -/

namespace Sys2Proof.Machine

/-- `S <- step(S, OP)` with the operation the environment presents (R8, R44; log 1). -/
def step (s : State) : Host.Outcome State Fault Refusal :=
  exec (sample s).1 (sample s).2

/-- `s` with one operation word presented next, ahead of all that was presented before (log 9). -/
def State.withFetchWord (s : State) (nbits w : Nat) : State :=
  { s with feed := presentWord nbits w s.feed }

end Sys2Proof.Machine
end

