-- ==== Sys2Proof/Machine/Trace.lean ====
section
/-! DEFINITION. Traces: the written form of 30_encoding.md R47, the pseudo-operations of R48, and a run of the model as
70_reset_and_hazards.md R96 has it: the state after the last word with the pin levels after each edge. -/

namespace Sys2Proof.Machine

/-- The operations a trace line stands for; `CYCLE` is `CYCLE_LENGTH` ticks (R47, R48). -/
def expand (c : Config) : TraceLine → List Instr
  | .reset => [.reset]
  | .nop => [.nop]
  | .tick => [.tick]
  | .set .a v => [.seta (BitVec.ofNat 8 v)]
  | .set .b v => [.setb (BitVec.ofNat 8 v)]
  | .tickSet .a v => [.tseta (BitVec.ofNat 8 v)]
  | .tickSet .b v => [.tsetb (BitVec.ofNat 8 v)]
  | .get .a => [.geta]
  | .get .b => [.getb]
  | .ticks n => List.replicate n .tick
  | .cycle => List.replicate c.cycleLength .tick
  | .nops n => List.replicate n .nop
  | .init a b => [.reset, .seta (BitVec.ofNat 8 a), .setb (BitVec.ofNat 8 b)]
  | .tickp k => .tick :: List.replicate k .nop

/-- The word read so far put before the words that follow, if there is one. -/
def flushWord (word : List Char) (rest : List String) : List String :=
  if word.isEmpty then rest else String.ofList word :: rest

/-- The words of a line: a blank parts them, a comma is a word of its own, a `;` starts a comment (R47; log 15). -/
def lineWords (word : List Char) : List Char → List String
  | [] => flushWord word []
  | ch :: rest =>
    if ch = ';' then flushWord word []
    else if ch = ' ' ∨ ch = '\t' then flushWord word (lineWords [] rest)
    else if ch = ',' then flushWord word ("," :: lineWords [] rest)
    else lineWords (word ++ [ch]) rest

/-- The value of a digit below `base`: `0` to `9`, then letters of either case. -/
def digitValue (base : Nat) (ch : Char) : Option Nat :=
  let n := ch.toNat
  let v := if n < 58 then n - 48 else if n < 91 then n - 55 else n - 87
  if (48 ≤ n ∧ n < 58 ∨ 65 ≤ n ∧ n < 71 ∨ 97 ≤ n ∧ n < 103) ∧ v < base then some v else none

/-- Digits read onto the number read so far. -/
def readDigits (base sofar : Nat) : List Char → Option Nat
  | [] => some sofar
  | ch :: rest =>
    match digitValue base ch with
    | some d => readDigits base (sofar * base + d) rest
    | none => none

/-- A number of a trace: decimal, or `0x` and hexadecimal digits (R47). -/
def readNumber (s : String) : Option Nat :=
  match s.toList with
  | [] => none
  | '0' :: 'x' :: ch :: rest => readDigits 16 0 (ch :: rest)
  | ch :: rest => readDigits 10 0 (ch :: rest)

/-- A channel of a trace: `A` or `B` (R47). -/
def readChannel (s : String) : Option Channel :=
  match s with
  | "A" => some .a
  | "B" => some .b
  | _ => none

/-- The words of one line, read as R47 and R48 spell them; no words at all are an empty line. -/
def readWords : List String → Option (List TraceLine)
  | [] => some []
  | ["RESET"] => some [.reset]
  | ["NOP"] => some [.nop]
  | ["TICK"] => some [.tick]
  | ["CYCLE"] => some [.cycle]
  | ["GET", c] => (readChannel c).map (fun ch => [.get ch])
  | ["TICKS", n] => (readNumber n).map (fun k => [.ticks k])
  | ["NOPS", n] => (readNumber n).map (fun k => [.nops k])
  | ["TICKP", n] => (readNumber n).map (fun k => [.tickp k])
  | ["SET", c, ",", v] =>
    (readChannel c).bind (fun ch => (readNumber v).map (fun n => [.set ch n]))
  | ["TICK+SET", c, ",", v] =>
    (readChannel c).bind (fun ch => (readNumber v).map (fun n => [.tickSet ch n]))
  | ["INIT", a, ",", b] =>
    (readNumber a).bind (fun m => (readNumber b).map (fun n => [.init m n]))
  | _ => none

/-- One line of a trace (R47): none where it is no line of the notation or a value is above 255. -/
def readLine (s : String) : Option (List TraceLine) :=
  match readWords (lineWords [] s.toList) with
  | some ls => if ls.all TraceLine.wellFormed then some ls else none
  | none => none

/-- Clock edges an operation takes: one, and none for a read (R47, R49 (6), R94). -/
def edges : Instr → Nat
  | .reset => 1
  | .nop => 1
  | .seta _ => 1
  | .setb _ => 1
  | .tick => 1
  | .tseta _ => 1
  | .tsetb _ => 1
  | .geta => 0
  | .getb => 0

/-- The result of a run (R96). -/
structure RunResult where
  /-- The state after the last operation. -/
  final : State
  /-- `(out_a, out_b)` after each edge, first edge first. -/
  pins : List (Level × Level)
  deriving DecidableEq, Repr

/-- The pin levels an operation that has just been executed adds to the record: one pair per edge (R96). -/
def pinsAfter (i : Instr) (s : State) : List (Level × Level) :=
  List.replicate (edges i) (outPin .a s, outPin .b s)

/-- A run: the operations at consecutive steps, top to bottom, with the pins after each edge (R47, R96). -/
def runTrace : List Instr → State → Host.Outcome RunResult Fault Refusal
  | [], s => .next { final := s, pins := [] }
  | i :: rest, s =>
    match exec i s with
    | .next t =>
      match runTrace rest t with
      | .next r => .next { r with pins := pinsAfter i t ++ r.pins }
      | .fault e => .fault e
      | .refused e => .refused e
    | .fault e => .fault e
    | .refused e => .refused e

end Sys2Proof.Machine
end

