-- ==== Sys2Proof/Safety.lean ====
section
/-! DEFINITION. What counts as a good state, which operations do what, and the spec's `step` function of 30_encoding.md
R44 written field by field, in the terms the claims use. -/

namespace Sys2Proof.Safety

open Sys2Proof.Machine

/-- The operation contains a tick event (R12, R78). -/
def hasTick : Instr → Bool
  | .reset => false
  | .nop => false
  | .seta _ => false
  | .setb _ => false
  | .tick => true
  | .tseta _ => true
  | .tsetb _ => true
  | .geta => false
  | .getb => false

/-- The operation writes entry `c` of the store at the host's order (R10, R26). -/
def storesTo (c : Channel) : Instr → Option Thr
  | .reset => none
  | .nop => none
  | .seta v => if c = .a then some v else none
  | .setb v => if c = .b then some v else none
  | .tick => none
  | .tseta v => if c = .a then some v else none
  | .tsetb v => if c = .b then some v else none
  | .geta => none
  | .getb => none

/-- The operation with its write to entry `c` left out: SET becomes NOP, TICK+SET becomes TICK (R69). -/
def withoutStore (c : Channel) : Instr → Instr
  | .reset => .reset
  | .nop => .nop
  | .seta v => if c = .a then .nop else .seta v
  | .setb v => if c = .b then .nop else .setb v
  | .tick => .tick
  | .tseta v => if c = .a then .tick else .tseta v
  | .tsetb v => if c = .b then .tick else .tsetb v
  | .geta => .geta
  | .getb => .getb

/-- How many ticks a sequence of operations contains (R66). -/
def countTicks (is : List Instr) : Nat := is.countP hasTick

/-- The other channel. -/
def otherChannel : Channel → Channel
  | .a => .b
  | .b => .a

/-- The operation that writes entry `c` (SETA or SETB). -/
def setFor (c : Channel) (v : Thr) : Instr :=
  match c with
  | .a => .seta v
  | .b => .setb v

/-- The operation that ticks and writes entry `c` (TSETA or TSETB). -/
def tickSetFor (c : Channel) (v : Thr) : Instr :=
  match c with
  | .a => .tseta v
  | .b => .tsetb v

/-- The operation that reads entry `c` (GETA or GETB). -/
def getFor (c : Channel) : Instr :=
  match c with
  | .a => .geta
  | .b => .getb

/-- Channel `c`'s level in a record of the two pins (R96). -/
def pinLevel (c : Channel) (pins : Level × Level) : Level :=
  match c with
  | .a => pins.1
  | .b => pins.2

/-- How many ticks of a sequence of operations leave channel `c` at the active level (R67). Edges without a tick are not
counted; the count ends where an operation stops. -/
def activeTicks (c : Channel) : List Instr → State → Nat
  | [], _ => 0
  | i :: rest, s =>
    match exec i s with
    | .next t =>
      (if hasTick i = true ∧ outPin c t = Config.build.activeLevel then 1 else 0) + activeTicks c rest t
    | .fault _ => 0
    | .refused _ => 0

/-- The operation leaves `THR[c]` at `v` where it is `v`: it does not reset, and if it writes the entry it writes `v`
(R67: "held constant"). -/
def holdsAt (c : Channel) (v : Thr) (i : Instr) : Prop :=
  i ≠ .reset ∧ (storesTo c i = none ∨ storesTo c i = some v)

/-- R13: after the first RESET, `0 ≤ POS ≤ 99`. -/
def PosInRange (s : State) : Prop := s.live = true → s.regs.pos.toNat < Config.build.cycleLength

/-- R68: the active pulses of the two channels start at the same edge, so at position 0 the outputs agree. -/
def PhaseAligned (s : State) : Prop := s.live = true → s.regs.pos = 0#7 → s.regs.outA = s.regs.outB

/-- The invariant every step keeps. -/
structure GoodState (s : State) : Prop where
  /-- The position is one of the cycle's. -/
  posInRange : PosInRange s
  /-- The two outputs agree at position 0. -/
  phaseAligned : PhaseAligned s

/-- The host's duty of R16 and R86 (2): every value it writes is at most 100. -/
def hostInRange (i : Instr) : Bool :=
  match storesTo .a i, storesTo .b i with
  | some v, _ => decide (v.toNat ≤ 100)
  | none, some v => decide (v.toNat ≤ 100)
  | none, none => true

/-- The source's invariant `0 ≤ threshold ≤ 100`, an assumption about the host (R16). -/
def ThresholdsInRange (r : Regs) : Prop := r.thrA.toNat ≤ 100 ∧ r.thrB.toNat ≤ 100

/-- `step(S, OP)` of R44, field by field: `rst`, then `tick` on the old thresholds, then `wr_en`. -/
def wordStep (c : Config) (r : Regs) (w : OpWord) : Regs :=
  if w.getLsbD 11 then
    { pos := 0#7, thrA := 0#8, thrB := 0#8, outA := c.inactiveLevel, outB := c.inactiveLevel }
  else
    let p := nextPos c r.pos
    let ticked :=
      if w.getLsbD 10 then
        { r with
          pos := p
          outA := level c (active c p r.thrA)
          outB := level c (active c p r.thrB) }
      else r
    if w.getLsbD 9 then
      if w.getLsbD 8 then { ticked with thrB := w.setWidth 8 } else { ticked with thrA := w.setWidth 8 }
    else ticked

end Sys2Proof.Safety
end

