-- ==== Sys2Proof/Certificates/Slice0/Obligations.lean ====
section
/-! DEFINITION. The statements for the provers. "Live" is the premise every claim of the spec takes: a RESET has been
executed (10_state.md R25). `Config.build` is this hardware: CYCLE_LENGTH 100, ACTIVE_LEVEL 0 (00_scope.md R5). -/

open Sys2Proof Sys2Proof.Machine Sys2Proof.Safety

/-! ## Encoding -/

/-- R45, whole: the canonical words; a decoder accepts every word; encode then decode is the identity; decode then encode
gives a word with the same effect on every state (the spec marks the last two as derived from R44). -/
def Obligations.CanonicalWordsRoundTrip : Prop :=
  (encode .reset = .edge 0x800#12 ∧ encode .nop = .edge 0x000#12 ∧ encode .tick = .edge 0x400#12 ∧
    ∀ v : Thr,
      encode (.seta v) = .edge (0x200#12 + v.setWidth 12) ∧
      encode (.setb v) = .edge (0x300#12 + v.setWidth 12) ∧
      encode (.tseta v) = .edge (0x600#12 + v.setWidth 12) ∧
      encode (.tsetb v) = .edge (0x700#12 + v.setWidth 12)) ∧
  (∀ w : OpWord, decode (.edge w) = .ok (decodeOp w)) ∧
  (decodeOp 0xFFF#12 = .reset ∧ decodeOp 0x1FF#12 = .nop ∧ decodeOp 0x5A5#12 = .tick) ∧
  (∀ i : Instr, decode (encode i) = .ok i) ∧
  (∀ w : OpWord, ∃ canonical : OpWord, encode (decodeOp w) = .edge canonical ∧
    ∀ s : State, exec (decodeOp canonical) s = exec (decodeOp w) s)

/-- The masks and matches of R44's table: each row is exactly the words that decode to its operation, with `wr_data` as
the operand, and both RD words select their row. The rows being disjoint and covering all words is in the "exactly". -/
def Obligations.DecoderFollowsOperationMap : Prop :=
  (∀ w : OpWord,
    (decodeOp w = .reset ↔ w &&& 0x800#12 = 0x800#12) ∧
    (decodeOp w = .nop ↔ w &&& 0xE00#12 = 0x000#12) ∧
    (∀ v : Thr, decodeOp w = .seta v ↔ w &&& 0xF00#12 = 0x200#12 ∧ v = w.setWidth 8) ∧
    (∀ v : Thr, decodeOp w = .setb v ↔ w &&& 0xF00#12 = 0x300#12 ∧ v = w.setWidth 8) ∧
    (decodeOp w = .tick ↔ w &&& 0xE00#12 = 0x400#12) ∧
    (∀ v : Thr, decodeOp w = .tseta v ↔ w &&& 0xF00#12 = 0x600#12 ∧ v = w.setWidth 8) ∧
    (∀ v : Thr, decodeOp w = .tsetb v ↔ w &&& 0xF00#12 = 0x700#12 ∧ v = w.setWidth 8) ∧
    decodeOp w ≠ .geta ∧ decodeOp w ≠ .getb) ∧
  (∀ w : RdWord,
    (decodeRd w = .geta ↔ w &&& 0x1#1 = 0x0#1) ∧ (decodeRd w = .getb ↔ w &&& 0x1#1 = 0x1#1))

/-- Words of 95_test_vectors.md 2.1, one or more of each operation. -/
def Obligations.TestVectorWordsDecode : Prop :=
  decode (.edge 0x0FF#12) = .ok .nop ∧ decode (.edge 0x219#12) = .ok (.seta 25#8) ∧
  decode (.edge 0x3C8#12) = .ok (.setb 200#8) ∧ decode (.edge 0x4FF#12) = .ok .tick ∧
  decode (.edge 0x663#12) = .ok (.tseta 99#8) ∧ decode (.edge 0x7FF#12) = .ok (.tsetb 255#8) ∧
  decode (.edge 0xE64#12) = .ok .reset ∧ decode (.read 0#1) = .ok .geta ∧ decode (.read 1#1) = .ok .getb

/-! ## The step -/

/-- R44's `step(S, OP)`: running the decoded word is the field-by-field function of the word, on every word. In particular
`rst` wins over tick and write, and tick and write do not exclude each other, the tick reading the old store. -/
def Obligations.DecodedWordRunsStepFunction : Prop :=
  ∀ (s : State) (w : OpWord), s.live = true ∨ w.getLsbD 11 = true →
    exec (decodeOp w) s = .next { s with regs := wordStep Config.build s.regs w, live := true }

/-- A step runs the operation of the oldest stimulus; an edge without synchrony runs a word the model leaves free (log 3);
beyond the feed the environment's next stimulus is free (log 2). -/
def Obligations.StepRunsTheDecodedOperation : Prop :=
  ∀ s : State,
    (∀ x rest i, s.feed = x :: rest → decode x = .ok i → step s = exec i { s with feed := rest }) ∧
    (∀ rest, s.feed = .unsync :: rest →
      step s = exec (decodeOp (Config.freeOpWord s.drawn)) { s with feed := rest, drawn := s.drawn + 1 }) ∧
    (s.feed = [] →
      step s = step { s with feed := [Config.freeStimulus s.drawn], drawn := s.drawn + 1 })

/-- The word the host places is the next one to run (log 9). -/
def Obligations.PlacedWordRunsNext : Prop :=
  ∀ (s : State) (nbits w : Nat) (i : Instr), decodeTableWord nbits w = some i →
    step (s.withFetchWord nbits w) = exec i s

/-- A run of operations is what the steps do when the canonical words of those operations stand in the feed. That the
words stand in State, and that a read takes a step, are the model's choices (log 1, log 6). -/
def Obligations.StepsRunTheFeed : Prop :=
  ∀ (is : List Instr) (s : State) (rest : List Stimulus) (r : RunResult),
    runTrace is { s with feed := rest } = .next r →
    core.run is.length { s with feed := is.map encode ++ rest } = .next r.final

/-! ## The pure functions -/

/-- R55 for every legal build: the two cases; on the positions of a cycle it is `(p + 1) mod CYCLE_LENGTH`; it never gives
CYCLE_LENGTH or more; the instances the rule names. -/
def Obligations.SuccessorOfAPosition : Prop :=
  (∀ (c : Config) (p : Pos), c.Legal →
    (c.cycleLength - 1 ≤ p.toNat → nextPos c p = 0#7) ∧
    (p.toNat < c.cycleLength - 1 → (nextPos c p).toNat = p.toNat + 1) ∧
    (p.toNat < c.cycleLength → (nextPos c p).toNat = (p.toNat + 1) % c.cycleLength) ∧
    (nextPos c p).toNat < c.cycleLength) ∧
  nextPos Config.build 98#7 = 99#7 ∧ nextPos Config.build 99#7 = 0#7 ∧
  (∀ p : Pos, 100 ≤ p.toNat → nextPos Config.build p = 0#7)

/-- R56 for every legal build: the clamp is the minimum with CYCLE_LENGTH − 1; a tick applies it to each threshold it
compares and changes no stored value. -/
def Obligations.ClampIsMinimumAndStoreIsKept : Prop :=
  ∀ c : Config, c.Legal →
    (∀ t : Thr, (c.cycleLength - 1 < t.toNat → (clamp c t).toNat = c.cycleLength - 1) ∧
      (t.toNat ≤ c.cycleLength - 1 → clamp c t = t)) ∧
    (∀ (r : Regs) (ch : Channel), storeRead ch (tickRegs c r) = storeRead ch r ∧
      (outReg ch (tickRegs c r) = c.activeLevel ↔
        (nextPos c r.pos).toNat ≤ (clamp c (storeRead ch r)).toNat))

/-- R57 for every legal build: unsigned, inclusive, against the clamped threshold. -/
def Obligations.ComparatorIsInclusive : Prop :=
  ∀ (c : Config) (p : Pos) (t : Thr), c.Legal →
    (active c p t = true ↔ p.toNat ≤ (clamp c t).toNat) ∧
    (p.toNat < c.cycleLength → p.toNat = t.toNat → active c p t = true) ∧
    (p.toNat < c.cycleLength → (active c p t = false ↔ t.toNat < p.toNat))

/-- R58: the polarity mapping, and what the other polarity changes: the two levels are exchanged, in a
tick and in the reset values, and nothing else (no other operation reads the configuration). -/
def Obligations.PolarityOnlyExchangesLevels : Prop :=
  (∀ c : Config, level c true = c.activeLevel ∧ level c false = c.inactiveLevel ∧
    c.inactiveLevel = 1#1 - c.activeLevel) ∧
  level Config.build true = 0#1 ∧ level Config.build false = 1#1 ∧
  (∀ (n : Nat) (l : Level) (r : Regs),
    tickRegs { cycleLength := n, activeLevel := 1#1 - l } r =
      { tickRegs { cycleLength := n, activeLevel := l } r with
        outA := 1#1 - (tickRegs { cycleLength := n, activeLevel := l } r).outA
        outB := 1#1 - (tickRegs { cycleLength := n, activeLevel := l } r).outB } ∧
    Regs.reset { cycleLength := n, activeLevel := 1#1 - l } =
      { Regs.reset { cycleLength := n, activeLevel := l } with
        outA := 1#1 - (Regs.reset { cycleLength := n, activeLevel := l }).outA
        outB := 1#1 - (Regs.reset { cycleLength := n, activeLevel := l }).outB })

/-- R59, which the spec marks as derived from R56, R57 and R13: on the positions of a cycle the clamp changes no output. -/
def Obligations.ClampIsUnobservable : Prop :=
  ∀ (c : Config) (p : Pos) (t : Thr), c.Legal → p.toNat < c.cycleLength →
    (p.toNat ≤ (clamp c t).toNat ↔ p.toNat ≤ t.toNat)

/-! ## Reset and the time before it -/

/-- R24: the values RESET leaves, from every state, the unreset one too; they do not yet agree with
`level(active(POS, THR[c]))`, and from the first tick on the outputs do. -/
def Obligations.ResetLeavesTheResetValues : Prop :=
  State.reset.regs = { pos := 0#7, thrA := 0#8, thrB := 0#8, outA := 1#1, outB := 1#1 } ∧
  State.reset.regs.outA = Config.build.inactiveLevel ∧ State.reset.regs.outB = Config.build.inactiveLevel ∧
  (∀ s : State, ∃ t, exec .reset s = .next t ∧ t.regs = State.reset.regs ∧
    ∀ (i : Instr) (c : Channel), hasTick i = true → ∃ u, exec i t = .next u ∧
      outReg c u.regs = level Config.build (active Config.build u.regs.pos (storeRead c t.regs))) ∧
  (∀ c : Channel, outReg c State.reset.regs ≠
    level Config.build (active Config.build State.reset.regs.pos (storeRead c State.reset.regs)))

/-- R71: RESET completes in every state, writes all five registers and nothing else (the ports and what the environment
will present are left alone), for every word with bit 11 set; a second RESET changes nothing more; the first TICK after it
leaves position 1 and both outputs inactive. -/
def Obligations.ResetCompletes : Prop :=
  ∀ s : State,
    exec .reset s = .next { s with regs := ⟨0#7, 0#8, 0#8, 1#1, 1#1⟩, live := true } ∧
    (∀ w : OpWord, w.getLsbD 11 = true → exec (decodeOp w) s = exec .reset s) ∧
    (∃ t u, exec .reset s = .next t ∧ exec .reset t = .next t ∧ exec .tick t = .next u ∧
      u.regs.pos = 1#7 ∧ u.regs.outA = 1#1 ∧ u.regs.outB = 1#1)

/-- Before the first RESET only RESET has a result: the registers have no value (R25), and the model stops (log 4). -/
def Obligations.OnlyResetRunsBeforeReset : Prop :=
  ∀ (i : Instr) (s : State), s.live = false →
    (i ≠ .reset → exec i s = .fault .beforeReset) ∧
    (i = .reset → ∃ t, exec i s = .next t ∧ t.live = true ∧ t.regs = State.reset.regs)

/-! ## Each operation's result -/

/-- R72: NOP, by every word of its row, changes nothing at all, and the state after a trace is the state after the same
trace with all NOPs removed, which the spec marks as derived from R44. -/
def Obligations.NopChangesNothing : Prop :=
  ∀ s : State, s.live = true →
    exec .nop s = .next s ∧
    (∀ w : OpWord, w &&& 0xE00#12 = 0#12 → exec (decodeOp w) s = .next s) ∧
    (∀ is : List Instr, ∃ r r', runTrace is s = .next r ∧
      runTrace (is.filter (fun i => i ≠ .nop)) s = .next r' ∧ r'.final = r.final)

/-- R50: SETA writes THR[0], by its canonical word too, every 8-bit value as it stands, and changes nothing else. -/
def Obligations.SetaWritesThresholdA : Prop :=
  ∀ (s : State) (v : Thr), s.live = true →
    exec (.seta v) s = .next { s with regs := { s.regs with thrA := v } } ∧
    exec (decodeOp (0x200#12 + v.setWidth 12)) s = .next { s with regs := { s.regs with thrA := v } }

/-- R51: SETB writes THR[1], by its canonical word too, every 8-bit value as it stands, and changes nothing else. -/
def Obligations.SetbWritesThresholdB : Prop :=
  ∀ (s : State) (v : Thr), s.live = true →
    exec (.setb v) s = .next { s with regs := { s.regs with thrB := v } } ∧
    exec (decodeOp (0x300#12 + v.setWidth 12)) s = .next { s with regs := { s.regs with thrB := v } }

/-- R52: GETA, the read word 0, shows the raw THR[0] on `rd_data`; no register changes, only the line `rd_ch` moves;
repeated, it gives the same; right after RESET it gives 0. That the line is held in State and that a read is a step are
the model's choice (log 6). -/
def Obligations.GetaShowsThresholdA : Prop :=
  ∀ s : State, s.live = true →
    (∃ t, exec .geta s = .next t ∧ rdData t = s.regs.thrA ∧ t = { s with rdCh := .a } ∧ exec .geta t = .next t) ∧
    decode (.read 0#1) = .ok .geta ∧
    (∃ r, runTrace [.reset, .geta] s = .next r ∧ rdData r.final = 0#8)

/-- R53: GETB, the read word 1, shows the raw THR[1] on `rd_data`; no register changes, only the line `rd_ch` moves (log
6); repeated, it gives the same; right after RESET it gives 0. -/
def Obligations.GetbShowsThresholdB : Prop :=
  ∀ s : State, s.live = true →
    (∃ t, exec .getb s = .next t ∧ rdData t = s.regs.thrB ∧ t = { s with rdCh := .b } ∧ exec .getb t = .next t) ∧
    decode (.read 1#1) = .ok .getb ∧
    (∃ r, runTrace [.reset, .getb] s = .next r ∧ rdData r.final = 0#8)

/-- R61: TICK, by every word of its row, advances and derives both outputs from the new position and the thresholds as before the edge, in every live
state, the unreachable counter patterns included; everything else is unchanged. -/
def Obligations.TickAdvancesThenDerives : Prop :=
  ∀ s : State, s.live = true →
    exec .tick s = .next { s with regs := { s.regs with
      pos := nextPos Config.build s.regs.pos
      outA := level Config.build (active Config.build (nextPos Config.build s.regs.pos) s.regs.thrA)
      outB := level Config.build (active Config.build (nextPos Config.build s.regs.pos) s.regs.thrB) } } ∧
    (∀ w : OpWord, w &&& 0xE00#12 = 0x400#12 → exec (decodeOp w) s = exec .tick s)

/-- R63: TSETA, by its canonical word too, ticks with the OLD thresholds and writes THR[0]; everything else is
unchanged. -/
def Obligations.TsetaTicksWithOldThresholds : Prop :=
  ∀ (s : State) (v : Thr), s.live = true →
    exec (.tseta v) s = .next { s with regs := {
      pos := nextPos Config.build s.regs.pos
      thrA := v
      thrB := s.regs.thrB
      outA := level Config.build (active Config.build (nextPos Config.build s.regs.pos) s.regs.thrA)
      outB := level Config.build (active Config.build (nextPos Config.build s.regs.pos) s.regs.thrB) } } ∧
    exec (decodeOp (0x600#12 + v.setWidth 12)) s = exec (.tseta v) s

/-- R64: TSETB, by its canonical word too, ticks with the OLD thresholds and writes THR[1]; everything else is
unchanged. -/
def Obligations.TsetbTicksWithOldThresholds : Prop :=
  ∀ (s : State) (v : Thr), s.live = true →
    exec (.tsetb v) s = .next { s with regs := {
      pos := nextPos Config.build s.regs.pos
      thrA := s.regs.thrA
      thrB := v
      outA := level Config.build (active Config.build (nextPos Config.build s.regs.pos) s.regs.thrA)
      outB := level Config.build (active Config.build (nextPos Config.build s.regs.pos) s.regs.thrB) } } ∧
    exec (decodeOp (0x700#12 + v.setWidth 12)) s = exec (.tsetb v) s

/-- R61 in numbers: from a position of the cycle, TICK leaves `(POS + 1) mod 100` and channel c at logic low exactly when
the new position is at most the stored, unclamped threshold. -/
def Obligations.TickInPlainNumbers : Prop :=
  ∀ s : State, s.live = true → s.regs.pos.toNat < 100 →
    ∃ t, exec .tick s = .next t ∧
      t.regs.pos.toNat = (s.regs.pos.toNat + 1) % 100 ∧
      t.regs.thrA = s.regs.thrA ∧ t.regs.thrB = s.regs.thrB ∧
      (t.regs.outA = 0#1 ↔ t.regs.pos.toNat ≤ s.regs.thrA.toNat) ∧
      (t.regs.outB = 0#1 ↔ t.regs.pos.toNat ≤ s.regs.thrB.toNat)

/-- R62, and the corner case R63 and R64 mark as derived from it: a tick and a write at one edge leave what "tick, then set" leaves, and what "set, then tick" leaves
differs from it exactly when the old and the new threshold compare differently at the new position. -/
def Obligations.CoincidingWriteIsTickThenSet : Prop :=
  ∀ (s : State) (ch : Channel) (v : Thr), s.live = true →
    ∃ t r r', exec (tickSetFor ch v) s = .next t ∧
      runTrace [.tick, setFor ch v] s = .next r ∧ r.final = t ∧
      runTrace [setFor ch v, .tick] s = .next r' ∧
      (r'.final ≠ t ↔
        active Config.build t.regs.pos v ≠ active Config.build t.regs.pos (storeRead ch s.regs))

/-! ## Frames and whole-machine rules -/

/-- The frame of all nine operations: what is unchanged when exec gives a next state. The store is the block's only
memory: each entry is unchanged unless the operation stores to it or is RESET. -/
def Obligations.EveryOperationKeepsItsFrame : Prop :=
  ∀ (i : Instr) (s t : State), exec i s = .next t →
    t.feed = s.feed ∧ t.drawn = s.drawn ∧
    (i ≠ .geta → i ≠ .getb → t.rdCh = s.rdCh) ∧
    (i ≠ .reset → t.live = s.live) ∧
    (i ≠ .reset → hasTick i = false →
      t.regs.pos = s.regs.pos ∧ t.regs.outA = s.regs.outA ∧ t.regs.outB = s.regs.outB) ∧
    (∀ ch, i ≠ .reset → storesTo ch i = none → storeRead ch t.regs = storeRead ch s.regs) ∧
    (∀ ch v, storesTo ch i = some v → storeRead ch t.regs = v ∧
      storeRead (otherChannel ch) t.regs = storeRead (otherChannel ch) s.regs)

/-- R82: only a tick and a reset change POS and the outputs, and only the host's writes and a reset change the store. -/
def Obligations.EachRegisterHasItsOnlyWriter : Prop :=
  ∀ (i : Instr) (s t : State), exec i s = .next t →
    (t.regs.pos ≠ s.regs.pos ∨ t.regs.outA ≠ s.regs.outA ∨ t.regs.outB ≠ s.regs.outB →
      hasTick i = true ∨ i = .reset) ∧
    (∀ ch, storeRead ch t.regs ≠ storeRead ch s.regs →
      storesTo ch i = some (storeRead ch t.regs) ∨ i = .reset)

/-- R12: how each operation changes POS, from every counter pattern; and from a position of the cycle every operation
leaves a position of the cycle, so never 100 nor a wrap at 128. -/
def Obligations.PositionAfterEachOperation : Prop :=
  ∀ (i : Instr) (s t : State), exec i s = .next t →
    (i = .reset → t.regs.pos = 0#7) ∧
    (hasTick i = true → t.regs.pos = nextPos Config.build s.regs.pos ∧
      (s.regs.pos.toNat < 100 → t.regs.pos.toNat = (s.regs.pos.toNat + 1) % 100)) ∧
    (i ≠ .reset → hasTick i = false → t.regs.pos = s.regs.pos) ∧
    (s.regs.pos.toNat < 100 → t.regs.pos.toNat < 100)

/-- R20: immediately after a tick each output is `level(active(POS, t_c))` of the new POS and the threshold before the
edge; without a tick or a reset it keeps its value, whatever is written to the store. -/
def Obligations.OutputsAreRecomputedAtTicksOnly : Prop :=
  ∀ (i : Instr) (s t : State) (ch : Channel), exec i s = .next t →
    (hasTick i = true →
      outReg ch t.regs = level Config.build (active Config.build t.regs.pos (storeRead ch s.regs))) ∧
    (hasTick i = false → i ≠ .reset → outReg ch t.regs = outReg ch s.regs)

/-- R19: no result depends on the old value of an output register: with other outputs every operation gives the same
registers, and after a tick or a reset the same outputs too. -/
def Obligations.OldOutputsAreNoInput : Prop :=
  ∀ (i : Instr) (s : State) (x y : Level), s.live = true →
    ∃ t t', exec i s = .next t ∧ exec i { s with regs := { s.regs with outA := x, outB := y } } = .next t' ∧
      (hasTick i = true ∨ i = .reset → t' = t) ∧
      (hasTick i = false → i ≠ .reset → t' = { t with regs := { t.regs with outA := x, outB := y } })

/-! ## Invariants -/

/-- The invariant holds right after reset, and after power-on, where it asks nothing. -/
def Obligations.ResetStateMeetsInvariant : Prop :=
  GoodState State.reset ∧ GoodState State.powerOn

/-- R13 and the common phase of R68, both marked by the spec as derived, as an invariant every step keeps: from any state that meets it, with any stimulus, the free ones
included. -/
def Obligations.EveryStepKeepsInvariant : Prop :=
  ∀ s t : State, GoodState s → step s = .next t → GoodState t

/-- R74, R96: once a RESET has been executed every step gives a next state, for ever. -/
def Obligations.LiveMachineNeverStops : Prop :=
  ∀ s : State, s.live = true →
    (∀ i : Instr, ∃ t, exec i s = .next t ∧ t.live = true) ∧
    (∀ n : Nat, ∃ t, core.run n s = .next t ∧ t.live = true)

/-- R16, R86: if the host writes only values of [0, 100], the thresholds stay in [0, 100]; nothing in the block does it. -/
def Obligations.HostKeepsThresholdsInRange : Prop :=
  ∀ (is : List Instr) (s : State) (r : RunResult),
    ThresholdsInRange s.regs → (∀ i ∈ is, hostInRange i = true) → runTrace is s = .next r →
    ThresholdsInRange r.final.regs

/-! ## The store over a run -/

/-- R34, R36: after a write of `v` to entry `ch`, and any operations that neither write that entry nor reset, the entry is
`v`, and a read shows `v`; the operations before it do not matter. -/
def Obligations.ReadShowsTheLatestWrite : Prop :=
  ∀ (ch : Channel) (v : Thr) (w : Instr) (is : List Instr) (s : State),
    s.live = true → storesTo ch w = some v → (∀ i ∈ is, i ≠ .reset ∧ storesTo ch i = none) →
    ∃ r, runTrace (w :: is ++ [getFor ch]) s = .next r ∧ rdData r.final = v ∧ storeRead ch r.final.regs = v

/-- R36: `rd_data` is `THR[rd_ch]` in every state, so at a write to the entry it shows it is the old value before the edge
and the new one after it, and a write to the other entry leaves it alone. -/
def Obligations.ReadDuringWriteShowsOldThenNew : Prop :=
  ∀ (ch : Channel) (v : Thr) (w : Instr) (s : State), s.live = true → storesTo ch w = some v →
    ∃ t, exec w s = .next t ∧ rdData s = storeRead s.rdCh s.regs ∧
      (s.rdCh = ch → rdData t = v) ∧ (s.rdCh ≠ ch → rdData t = rdData s)

/-- R35, R90: a threshold written at one edge is used by every tick at a later edge until it is written again, and a tick
at the edge of the write itself uses the old one. -/
def Obligations.LaterTicksUseTheWrittenThreshold : Prop :=
  ∀ (ch : Channel) (v : Thr) (w j : Instr) (is : List Instr) (s : State),
    s.live = true → storesTo ch w = some v → (∀ i ∈ is, i ≠ .reset ∧ storesTo ch i = none) → hasTick j = true →
    (∃ t, exec w s = .next t ∧ (hasTick w = true →
      outReg ch t.regs = level Config.build (active Config.build t.regs.pos (storeRead ch s.regs)))) ∧
    (∃ r, runTrace (w :: is ++ [j]) s = .next r ∧
      outReg ch r.final.regs = level Config.build (active Config.build r.final.regs.pos v))

/-- R75: a threshold of 101 to 255 is stored and read back as written, and every tick until it is written again treats
it as 99: active at every position. -/
def Obligations.OutOfRangeThresholdIsAlwaysActive : Prop :=
  ∀ (ch : Channel) (v : Thr) (w : Instr) (s : State), s.live = true → 101 ≤ v.toNat → storesTo ch w = some v →
    (∃ r, runTrace [w, getFor ch] s = .next r ∧ rdData r.final = v) ∧
    (∀ (is : List Instr) (j : Instr), (∀ i ∈ is, i ≠ .reset ∧ storesTo ch i = none) → hasTick j = true →
      ∃ r, runTrace (w :: is ++ [j]) s = .next r ∧ outReg ch r.final.regs = 0#1) ∧
    clamp Config.build v = 99#8

/-! ## The waveform -/

/-- R66, which the spec marks as derived from R55 and R12: after k ticks, in any mixture of operations without a reset, the
position is `(p + k) mod 100`; so after exactly 100 it is p again, and at no earlier tick among them. -/
def Obligations.CycleClosure : Prop :=
  ∀ (is : List Instr) (s : State), s.live = true → s.regs.pos.toNat < 100 → (∀ i ∈ is, i ≠ .reset) →
    ∃ r, runTrace is s = .next r ∧
      r.final.regs.pos.toNat = (s.regs.pos.toNat + countTicks is) % 100 ∧
      (countTicks is = 100 → r.final.regs.pos = s.regs.pos) ∧
      (0 < countTicks is → countTicks is < 100 → r.final.regs.pos ≠ s.regs.pos)

/-- R66, derived from R55 as the spec marks it, for every legal CYCLE_LENGTH: k ticks of a build advance its counter by k
modulo its CYCLE_LENGTH. -/
def Obligations.EveryBuildClosesItsCycle : Prop :=
  ∀ (c : Config) (r : Regs) (k : Nat), c.Legal → r.pos.toNat < c.cycleLength →
    ((tickRegs c)^[k] r).pos.toNat = (r.pos.toNat + k) % c.cycleLength

/-- R67, which the spec marks as derived from R56, R57 and R66: with THR[ch] = t held, channel ch is at the
active level after exactly `min(t, 99) + 1` of any 100 ticks that follow each other, in any mixture of TICK, TSETA and TSETB
with NOPs, reads and SETs between them that leaves THR[ch] at t; and after each of them it is active exactly when the
position is at most `min(t, 99)`. Of 100 TICKs at consecutive edges the pins record the same count. -/
def Obligations.DutyCycleIsThresholdPlusOne : Prop :=
  ∀ (s : State) (ch : Channel), s.live = true → s.regs.pos.toNat < 100 →
    (∀ is : List Instr, (∀ i ∈ is, holdsAt ch (storeRead ch s.regs) i) → countTicks is = 100 →
      activeTicks ch is s = min (storeRead ch s.regs).toNat 99 + 1) ∧
    (∀ (is : List Instr) (j : Instr), (∀ i ∈ is, holdsAt ch (storeRead ch s.regs) i) →
      j ≠ .reset → hasTick j = true → ∃ r, runTrace (is ++ [j]) s = .next r ∧
      (outPin ch r.final = 0#1 ↔ r.final.regs.pos.toNat ≤ min (storeRead ch s.regs).toNat 99)) ∧
    (∃ r, runTrace (List.replicate 100 .tick) s = .next r ∧ r.pins.length = 100 ∧
      (r.pins.map (pinLevel ch)).count 0#1 =
        min (storeRead ch s.regs).toNat 99 + 1)

/-- R68, which the spec marks as derived from R61 and R67: both outputs become active at the tick that takes POS from 99 to 0; an output becomes inactive at the tick that
takes POS from its threshold to the next position if the threshold is at most 98, and with a larger one it is active
after every tick. -/
def Obligations.PulsesRiseTogetherAndFallAfterThreshold : Prop :=
  ∀ (s : State) (ch : Channel), s.live = true → s.regs.pos.toNat < 100 →
    ∃ t, exec .tick s = .next t ∧
      (s.regs.pos = 99#7 → t.regs.pos = 0#7 ∧ outPin .a t = 0#1 ∧ outPin .b t = 0#1) ∧
      ((storeRead ch s.regs).toNat ≤ 98 → s.regs.pos.toNat = (storeRead ch s.regs).toNat →
        t.regs.pos.toNat = (storeRead ch s.regs).toNat + 1 ∧ outPin ch t = 1#1) ∧
      (99 ≤ (storeRead ch s.regs).toNat → outPin ch t = 0#1)

/-- R87, which the spec marks as derived from R24, R60 and R61: from RESET, whatever the state before, and both thresholds written: after k ticks POS = k mod 100; before the first
tick both outputs are inactive; from then on each is active exactly when k mod 100 is at most its threshold. -/
def Obligations.FirstCycleAfterReset : Prop :=
  ∀ (s : State) (a b : Thr) (k : Nat),
    ∃ r, runTrace ([.reset, .seta a, .setb b] ++ List.replicate k .tick) s = .next r ∧
      r.final.regs.pos.toNat = k % 100 ∧
      (k = 0 → r.final.regs.outA = 1#1 ∧ r.final.regs.outB = 1#1) ∧
      (0 < k → (r.final.regs.outA = 0#1 ↔ k % 100 ≤ a.toNat) ∧ (r.final.regs.outB = 0#1 ↔ k % 100 ≤ b.toNat))

/-- R91, R92 (which the spec marks as derived from R61 and R35), for every position p of the cycle, old threshold t < p and
new threshold v ≥ p. A tick that leaves p leaves the channel inactive, its pulse being over; the SET leaves the pin as it
is; the ticks up to position v make it active in the same cycle, a second pulse where v > p; the ticks after v, to the end
of the cycle, make it inactive; from the next wrap on every cycle has the new duty. -/
def Obligations.MidCycleChangeGivesSecondPulse : Prop :=
  ∀ (s : State) (ch : Channel) (v : Thr), s.live = true → s.regs.pos.toNat < 100 →
    (storeRead ch s.regs).toNat < s.regs.pos.toNat → s.regs.pos.toNat ≤ v.toNat →
    (∀ u : State, exec .tick u = .next s → outPin ch s = 1#1) ∧
    (∀ k : Nat, ∃ r, runTrace (setFor ch v :: List.replicate k .tick) s = .next r ∧
      (k = 0 → outPin ch r.final = outPin ch s) ∧
      (1 ≤ k → s.regs.pos.toNat + k ≤ min v.toNat 99 → outPin ch r.final = 0#1) ∧
      (v.toNat < s.regs.pos.toNat + k → s.regs.pos.toNat + k ≤ 99 → outPin ch r.final = 1#1) ∧
      (100 ≤ s.regs.pos.toNat + k →
        (outPin ch r.final = 0#1 ↔ (s.regs.pos.toNat + k) % 100 ≤ min v.toNat 99)))

/-- R77: ticks after RESET with no threshold written: every channel is active after each hundredth tick and only then. -/
def Obligations.UnsetThresholdBehavesAsZero : Prop :=
  ∀ (s : State) (ch : Channel) (k : Nat),
    ∃ r, runTrace (.reset :: List.replicate k .tick) s = .next r ∧
      (outPin ch r.final = 0#1 ↔ 0 < k ∧ k % 100 = 0)

/-- R69, which the spec marks as derived from R50, R51, R61, R63 and R64: what is written to one entry never reaches the
other channel's output: replace every such SET by NOP and every such TICK+SET by TICK, in any sequence, and it is the same
at its end. So is the other channel's threshold (R31) and POS (R12). -/
def Obligations.ChannelsAreIndependent : Prop :=
  ∀ (is : List Instr) (s : State) (ch : Channel), s.live = true →
    ∃ r r', runTrace is s = .next r ∧ runTrace (is.map (withoutStore ch)) s = .next r' ∧
      r'.final.regs.pos = r.final.regs.pos ∧
      outReg (otherChannel ch) r'.final.regs = outReg (otherChannel ch) r.final.regs ∧
      storeRead (otherChannel ch) r'.final.regs = storeRead (otherChannel ch) r.final.regs

/-- R48: the pseudo-operation `TICKP k` leaves the state `TICK` leaves, and the pins hold that tick's levels for all of its
k + 1 edges. -/
def Obligations.TickPeriodLeavesWhatTickLeaves : Prop :=
  ∀ (k : Nat) (s : State), s.live = true →
    ∃ t r, exec .tick s = .next t ∧ runTrace (expand Config.build (.tickp k)) s = .next r ∧ r.final = t ∧
      r.pins = List.replicate (k + 1) (outPin .a t, outPin .b t)

/-- R94, R96: a run records one pair of pin levels per clock edge, and every OP word takes exactly one edge, every RD word
none. -/
def Obligations.EveryOpWordTakesOneEdge : Prop :=
  (∀ w : OpWord, edges (decodeOp w) = 1) ∧ (∀ w : RdWord, edges (decodeRd w) = 0) ∧
  (∀ (is : List Instr) (s : State), s.live = true →
    ∃ r, runTrace is s = .next r ∧ r.pins.length = (is.map edges).sum)
end

