-- ==== Sys2Proof/Laws/Decode.lean ====
section
/-! SUPPORT. The operation word and its fields (30_encoding.md R41): a word is the concatenation of its fields, and the
decoder reads from a word built of fields the fields it was built of. -/

namespace Sys2Proof.Laws

/-- Every word is built of its own fields (R41). -/
theorem opWord_of_fields (w : OpWord) :
    opWord (opRst w) (opTick w) (opWrEn w) (BitVec.ofBool (w.getLsbD 8)) (opData w) = w := by
  apply BitVec.eq_of_getLsbD_eq
  intro i hi
  have e : (opWord (opRst w) (opTick w) (opWrEn w) (BitVec.ofBool (w.getLsbD 8)) (opData w)).getLsbD i =
      (BitVec.ofBool (opRst w) ++ BitVec.ofBool (opTick w) ++ BitVec.ofBool (opWrEn w) ++
        BitVec.ofBool (w.getLsbD 8) ++ opData w).getLsbD i := rfl
  rw [e]
  simp only [BitVec.getLsbD_append, opRst, opTick, opWrEn, opData, BitVec.getLsbD_extractLsb',
    BitVec.getLsbD_ofBool]
  interval_cases i <;> simp

/-- The mask 0xF00 of the store rows keeps the four control bits and drops the data (R44). -/
theorem opWord_control_bits (rst tick wrEn : Bool) (ch : BitVec 1) (v : Thr) :
    opWord rst tick wrEn ch v &&& 0xF00#12 = opWord rst tick wrEn ch 0#8 := by
  apply BitVec.eq_of_getLsbD_eq
  intro i hi
  have e : ∀ u : Thr, (opWord rst tick wrEn ch u).getLsbD i =
      (BitVec.ofBool rst ++ BitVec.ofBool tick ++ BitVec.ofBool wrEn ++ ch ++ u).getLsbD i := fun _ => rfl
  rw [BitVec.getLsbD_and, e, e]
  simp only [BitVec.getLsbD_append, BitVec.getLsbD_ofBool]
  interval_cases i <;> simp

/-- What the decoder makes of fields (R44). -/
def instrOfFields (rst tick wrEn ch : Bool) (v : Thr) : Instr :=
  if rst then .reset
  else
    match tick, wrEn, ch with
    | false, false, _ => .nop
    | false, true, false => .seta v
    | false, true, true => .setb v
    | true, false, _ => .tick
    | true, true, false => .tseta v
    | true, true, true => .tsetb v

/-- The decoder reads from a word the fields it is built of. -/
theorem decodeOp_opWord (rst tick wrEn ch : Bool) (v : Thr) :
    decodeOp (opWord rst tick wrEn (BitVec.ofBool ch) v) = instrOfFields rst tick wrEn ch v := by
  cases rst <;> cases tick <;> cases wrEn <;> cases ch <;> (revert v; decide)

/-- Every word is some fields' word: what holds of all fields holds of all words. -/
theorem exists_fields (w : OpWord) :
    ∃ rst tick wrEn ch v, w = opWord rst tick wrEn (BitVec.ofBool ch) v :=
  ⟨_, _, _, _, _, (opWord_of_fields w).symm⟩

/-- No OP word is a read (R42, R44). -/
theorem decodeOp_not_read (w : OpWord) : decodeOp w ≠ .geta ∧ decodeOp w ≠ .getb := by
  obtain ⟨r, t, e, c, v, rfl⟩ := exists_fields w
  rw [decodeOp_opWord]
  cases r <;> cases t <;> cases e <;> cases c <;> exact ⟨nofun, nofun⟩

end Sys2Proof.Laws
end

