-- ==== Sys2Proof/Laws/State.lean ====
section
/-! SUPPORT. One lemma per field per update of State and Regs, so that no later proof unfolds a record update. -/

namespace Sys2Proof.Laws

open Sys2Proof.Machine

@[simp] theorem reset_pos (c : Config) : (Regs.reset c).pos = 0#7 := rfl
@[simp] theorem reset_thrA (c : Config) : (Regs.reset c).thrA = 0#8 := rfl
@[simp] theorem reset_thrB (c : Config) : (Regs.reset c).thrB = 0#8 := rfl
@[simp] theorem reset_outA (c : Config) : (Regs.reset c).outA = c.inactiveLevel := rfl
@[simp] theorem reset_outB (c : Config) : (Regs.reset c).outB = c.inactiveLevel := rfl

@[simp] theorem storeWrite_pos (ch : Channel) (v : Thr) (r : Regs) : (storeWrite ch v r).pos = r.pos := by
  cases ch <;> rfl
@[simp] theorem storeWrite_outA (ch : Channel) (v : Thr) (r : Regs) : (storeWrite ch v r).outA = r.outA := by
  cases ch <;> rfl
@[simp] theorem storeWrite_outB (ch : Channel) (v : Thr) (r : Regs) : (storeWrite ch v r).outB = r.outB := by
  cases ch <;> rfl
@[simp] theorem storeWrite_a_thrA (v : Thr) (r : Regs) : (storeWrite .a v r).thrA = v := rfl
@[simp] theorem storeWrite_a_thrB (v : Thr) (r : Regs) : (storeWrite .a v r).thrB = r.thrB := rfl
@[simp] theorem storeWrite_b_thrA (v : Thr) (r : Regs) : (storeWrite .b v r).thrA = r.thrA := rfl
@[simp] theorem storeWrite_b_thrB (v : Thr) (r : Regs) : (storeWrite .b v r).thrB = v := rfl

@[simp] theorem storeRead_a (r : Regs) : storeRead .a r = r.thrA := rfl
@[simp] theorem storeRead_b (r : Regs) : storeRead .b r = r.thrB := rfl
@[simp] theorem outReg_a (r : Regs) : outReg .a r = r.outA := rfl
@[simp] theorem outReg_b (r : Regs) : outReg .b r = r.outB := rfl

/-- A read after a write to the same entry gives the value written (R34). -/
@[simp] theorem storeRead_storeWrite_same (ch : Channel) (v : Thr) (r : Regs) :
    storeRead ch (storeWrite ch v r) = v := by cases ch <;> rfl

/-- A write leaves the other entry alone (R31). -/
theorem storeRead_storeWrite_other {ch ch' : Channel} (h : ch' ≠ ch) (v : Thr) (r : Regs) :
    storeRead ch' (storeWrite ch v r) = storeRead ch' r := by
  cases ch <;> cases ch' <;> first | rfl | exact absurd rfl h

@[simp] theorem outReg_storeWrite (ch ch' : Channel) (v : Thr) (r : Regs) :
    outReg ch' (storeWrite ch v r) = outReg ch' r := by cases ch <;> cases ch' <;> rfl

@[simp] theorem tickRegs_pos (c : Config) (r : Regs) : (tickRegs c r).pos = nextPos c r.pos := rfl
@[simp] theorem tickRegs_thrA (c : Config) (r : Regs) : (tickRegs c r).thrA = r.thrA := rfl
@[simp] theorem tickRegs_thrB (c : Config) (r : Regs) : (tickRegs c r).thrB = r.thrB := rfl
@[simp] theorem tickRegs_outA (c : Config) (r : Regs) :
    (tickRegs c r).outA = level c (active c (nextPos c r.pos) r.thrA) := rfl
@[simp] theorem tickRegs_outB (c : Config) (r : Regs) :
    (tickRegs c r).outB = level c (active c (nextPos c r.pos) r.thrB) := rfl

@[simp] theorem withFetchWord_regs (s : State) (n w : Nat) : (s.withFetchWord n w).regs = s.regs := rfl
@[simp] theorem withFetchWord_live (s : State) (n w : Nat) : (s.withFetchWord n w).live = s.live := rfl
@[simp] theorem withFetchWord_rdCh (s : State) (n w : Nat) : (s.withFetchWord n w).rdCh = s.rdCh := rfl
@[simp] theorem withFetchWord_drawn (s : State) (n w : Nat) : (s.withFetchWord n w).drawn = s.drawn := rfl
@[simp] theorem withFetchWord_feed (s : State) (n w : Nat) :
    (s.withFetchWord n w).feed = presentWord n w s.feed := rfl

end Sys2Proof.Laws
end

