-- ==== Sys2Proof/Laws/Flags.lean ====
section
/-! SUPPORT. What the four pure functions give, in numbers (41_cycle_driver.md R55 to R58). -/

namespace Sys2Proof.Laws

open Sys2Proof.Machine

@[simp] theorem build_cycleLength : Config.build.cycleLength = 100 := rfl
@[simp] theorem build_activeLevel : Config.build.activeLevel = 0#1 := rfl
@[simp] theorem build_inactiveLevel : Config.build.inactiveLevel = 1#1 := by decide

/-- This hardware's arguments meet the constraint of R5. -/
theorem build_legal : Config.build.Legal := by decide

/-- The position after `p`, as a number (R55). -/
theorem nextPos_toNat (c : Config) (hc : c.Legal) (p : Pos) :
    (nextPos c p).toNat = if c.cycleLength - 1 ≤ p.toNat then 0 else p.toNat + 1 := by
  obtain ⟨_, h128, _⟩ := hc
  unfold nextPos
  split
  · rfl
  · rw [BitVec.toNat_add, show (1#7).toNat = 1 from rfl, Nat.mod_eq_of_lt (by omega)]

/-- The clamped threshold, as a number (R56). -/
theorem clamp_toNat (c : Config) (hc : c.Legal) (t : Thr) :
    (clamp c t).toNat = min t.toNat (c.cycleLength - 1) := by
  obtain ⟨_, h128, _⟩ := hc
  unfold clamp
  split
  · rw [BitVec.toNat_ofNat, Nat.mod_eq_of_lt (by omega), Nat.min_eq_right (by omega)]
  · rw [Nat.min_eq_left (by omega)]

/-- The comparator, as a comparison of numbers (R57). -/
theorem active_iff (c : Config) (p : Pos) (t : Thr) :
    active c p t = true ↔ p.toNat ≤ (clamp c t).toNat := by
  simp only [active, BitVec.ule, BitVec.toNat_setWidth, decide_eq_true_eq]
  rw [Nat.mod_eq_of_lt (by omega)]

/-- The level is the active one exactly when the channel is active: the two levels differ (R58, D15). -/
theorem level_eq_activeLevel (c : Config) (a : Bool) : level c a = c.activeLevel ↔ a = true := by
  cases a
  · simp only [level, Config.inactiveLevel, Bool.false_eq_true, if_false, iff_false]
    generalize c.activeLevel = l
    revert l; decide
  · simp [level]

@[simp] theorem level_build (a : Bool) : level Config.build a = if a then 0#1 else 1#1 := by cases a <;> decide

end Sys2Proof.Laws
end

