-- ==== Sys2Proof/Laws/Ops.lean ====
section
/-! SUPPORT. What the shared operations and the dispatch can answer, said once: a later proof cites these and unfolds no
meaning. -/

namespace Sys2Proof.Laws

open Sys2Proof.Machine

/-- If a gated operation answers a next state, a RESET has been executed and the state is the operation's. -/
theorem onLive_next {s t : State} {f : State → State} :
    onLive s f = .next t ↔ s.live = true ∧ t = f s := by
  cases h : s.live
  · simp [onLive, h]
  · simpa [onLive, h] using eq_comm

/-- Once a RESET has been executed a gated operation answers a next state. -/
theorem onLive_of_live {s : State} (h : s.live = true) (f : State → State) : onLive s f = .next (f s) := by
  simp [onLive, h]

/-- Before the first RESET a gated operation stops. -/
theorem onLive_of_not_live {s : State} (h : s.live = false) (f : State → State) :
    onLive s f = .fault .beforeReset := by
  simp [onLive, h]

/-- The effect of an operation on a state, as a total function; `exec` gives it from a live state on. -/
def effect (i : Instr) (s : State) : State :=
  match i with
  | .reset => { s with regs := Regs.reset Config.build, live := true }
  | .nop => s
  | .seta v => { s with regs := storeWrite .a v s.regs }
  | .setb v => { s with regs := storeWrite .b v s.regs }
  | .tick => { s with regs := tickRegs Config.build s.regs }
  | .tseta v => { s with regs := storeWrite .a v (tickRegs Config.build s.regs) }
  | .tsetb v => { s with regs := storeWrite .b v (tickRegs Config.build s.regs) }
  | .geta => { s with rdCh := .a }
  | .getb => { s with rdCh := .b }

/-- Every operation but RESET is its effect behind the gate. -/
theorem exec_eq_onLive {i : Instr} (h : i ≠ .reset) (s : State) : exec i s = onLive s (effect i) := by
  cases i <;> first | rfl | exact absurd rfl h

/-- RESET answers its effect in every state. -/
theorem exec_reset (s : State) : exec .reset s = .next (effect .reset s) := rfl

/-- From a live state every operation answers its effect. -/
theorem exec_of_live {s : State} (h : s.live = true) (i : Instr) : exec i s = .next (effect i s) := by
  by_cases hi : i = .reset
  · subst hi; exact exec_reset s
  · rw [exec_eq_onLive hi, onLive_of_live h]

/-- All that an operation can answer as a next state: its effect, from a live state or by RESET. -/
theorem exec_next {i : Instr} {s t : State} (h : exec i s = .next t) :
    t = effect i s ∧ (s.live = true ∨ i = .reset) := by
  by_cases hi : i = .reset
  · subst hi; exact ⟨(Host.Outcome.next.inj h).symm, .inr rfl⟩
  · rw [exec_eq_onLive hi] at h
    exact ⟨(onLive_next.1 h).2, .inl (onLive_next.1 h).1⟩

/-- No operation makes a live state unreset (R25). -/
theorem effect_live {s : State} (h : s.live = true) (i : Instr) : (effect i s).live = true := by
  cases i <;> first | rfl | exact h

@[simp] theorem effect_feed (i : Instr) (s : State) : (effect i s).feed = s.feed := by cases i <;> rfl
@[simp] theorem effect_drawn (i : Instr) (s : State) : (effect i s).drawn = s.drawn := by cases i <;> rfl

/-- The effect neither reads nor changes what the environment will present. -/
theorem effect_withFeed (i : Instr) (s : State) (l : List Stimulus) :
    effect i { s with feed := l } = { effect i s with feed := l } := by cases i <;> rfl

end Sys2Proof.Laws
end

