-- ==== Sys2Proof/Laws/PerInstr.lean ====
section
/-! SUPPORT. Statements for all instructions, one lemma per constructor. -/

namespace Sys2Proof.Laws.RowWord

/-- The mask of the instruction's row in 30_encoding.md R44, and the match; the formats as R41 and R42. -/
def row : Instr → Nat × Nat
  | .reset => (0x800, 0x800)
  | .nop => (0xE00, 0x000)
  | .seta _ => (0xF00, 0x200)
  | .setb _ => (0xF00, 0x300)
  | .tick => (0xE00, 0x400)
  | .tseta _ => (0xF00, 0x600)
  | .tsetb _ => (0xF00, 0x700)
  | .geta => (0x1, 0x0)
  | .getb => (0x1, 0x1)

/-- The canonical word of the instruction lies in its own row of the operation map (R44, R45). -/
def Statement (i : Instr) : Prop :=
  match encode i with
  | .edge w => w &&& BitVec.ofNat 12 (row i).1 = BitVec.ofNat 12 (row i).2
  | .read w => w &&& BitVec.ofNat 1 (row i).1 = BitVec.ofNat 1 (row i).2
  | .unsync => False

theorem reset : Statement .reset := by simp only [Statement, encode, row]; decide
theorem nop : Statement .nop := by simp only [Statement, encode, row]; decide
theorem seta (v : Thr) : Statement (.seta v) :=
  (opWord_control_bits _ _ _ _ v).trans (by simp only [row]; decide)
theorem setb (v : Thr) : Statement (.setb v) :=
  (opWord_control_bits _ _ _ _ v).trans (by simp only [row]; decide)
theorem tick : Statement .tick := by simp only [Statement, encode, row]; decide
theorem tseta (v : Thr) : Statement (.tseta v) :=
  (opWord_control_bits _ _ _ _ v).trans (by simp only [row]; decide)
theorem tsetb (v : Thr) : Statement (.tsetb v) :=
  (opWord_control_bits _ _ _ _ v).trans (by simp only [row]; decide)
theorem geta : Statement .geta := by simp only [Statement, encode, row]; decide
theorem getb : Statement .getb := by simp only [Statement, encode, row]; decide

end Sys2Proof.Laws.RowWord
end

