-- ==== Sys2Proof/Laws/Trace.lean ====
section
/-! SUPPORT. What a run gives: from a live state it always completes, its final state is the fold of the effects. -/

namespace Sys2Proof.Laws

open Sys2Proof.Machine

/-- The pins a run records. -/
def pinsOf : List Instr → State → List (Level × Level)
  | [], _ => []
  | i :: rest, s => pinsAfter i (effect i s) ++ pinsOf rest (effect i s)

/-- From a live state a run completes, with the effects one after another (R74, R96). -/
theorem runTrace_of_live (is : List Instr) :
    ∀ {s : State}, s.live = true →
      runTrace is s = .next { final := is.foldl (fun t i => effect i t) s, pins := pinsOf is s } := by
  induction is with
  | nil => intro s _; rfl
  | cons i rest ih =>
    intro s h
    simp only [runTrace, exec_of_live h, ih (effect_live h i), pinsOf, List.foldl_cons]

/-- A run that begins with RESET completes from every state. -/
theorem runTrace_reset (is : List Instr) (s : State) :
    runTrace (.reset :: is) s =
      .next { final := is.foldl (fun t i => effect i t) (effect .reset s), pins := pinsOf (.reset :: is) s } := by
  simp only [runTrace, show exec .reset s = .next (effect .reset s) from rfl,
    runTrace_of_live is (show (effect .reset s).live = true from rfl), pinsOf]

/-- A run's first operation answers a next state, and the rest is a run from there. -/
theorem runTrace_cons {i : Instr} {is : List Instr} {s : State} {r : RunResult}
    (h : runTrace (i :: is) s = .next r) :
    ∃ t r', exec i s = .next t ∧ runTrace is t = .next r' ∧
      r = { final := r'.final, pins := pinsAfter i t ++ r'.pins } := by
  simp only [runTrace] at h
  split at h
  · rename_i t ht
    split at h
    · rename_i r' hr'
      exact ⟨t, r', ht, hr', (Host.Outcome.next.inj h).symm⟩
    · cases h
    · cases h
  · cases h
  · cases h

/-- The effects one after another keep a live state live. -/
theorem foldl_effect_live (is : List Instr) :
    ∀ {s : State}, s.live = true → (is.foldl (fun t i => effect i t) s).live = true := by
  induction is with
  | nil => intro s h; exact h
  | cons i rest ih => intro s h; exact ih (effect_live h i)

end Sys2Proof.Laws
end

