-- ==== Sys2Proof/Laws/Safety.lean ====
section
/-! SUPPORT. Small facts about the terms the claims use: counted ticks, and what an operation that does not store keeps. -/

namespace Sys2Proof.Laws

open Sys2Proof.Machine Sys2Proof.Safety

@[simp] theorem countTicks_nil : countTicks [] = 0 := rfl

theorem countTicks_cons (i : Instr) (is : List Instr) :
    countTicks (i :: is) = countTicks is + if hasTick i then 1 else 0 := List.countP_cons

theorem countTicks_append (is js : List Instr) : countTicks (is ++ js) = countTicks is + countTicks js :=
  List.countP_append

/-- n ticks are n ticks. -/
@[simp] theorem countTicks_ticks (n : Nat) : countTicks (List.replicate n .tick) = n := by
  induction n with
  | zero => rfl
  | succ n ih => rw [List.replicate_succ, countTicks_cons, ih]; rfl

/-- An operation that stores to an entry leaves the stored value there (R34). -/
theorem storeRead_effect_stored {ch : Channel} {v : Thr} {i : Instr} (h : storesTo ch i = some v) (s : State) :
    storeRead ch (effect i s).regs = v := by
  cases i <;> cases ch <;> simp_all [effect, storesTo]

/-- Counting active ticks from a live state, one operation at a time. -/
theorem activeTicks_cons {s : State} (h : s.live = true) (ch : Channel) (i : Instr) (is : List Instr) :
    activeTicks ch (i :: is) s =
      (if hasTick i = true ∧ outPin ch (effect i s) = 0#1 then 1 else 0) + activeTicks ch is (effect i s) := by
  simp only [activeTicks, exec_of_live h]; rfl

/-- An operation that holds an entry at its value keeps it (R67). -/
theorem storeRead_effect_held {ch : Channel} {i : Instr} {s : State}
    (h : holdsAt ch (storeRead ch s.regs) i) : storeRead ch (effect i s).regs = storeRead ch s.regs := by
  obtain ⟨hr, hn | hv⟩ := h
  · cases i <;> cases ch <;> simp_all [effect, storesTo]
  · exact storeRead_effect_stored hv s

/-- An operation that neither stores to an entry nor resets keeps it (R31, R34). -/
theorem storeRead_effect_kept {ch : Channel} {i : Instr} (hr : i ≠ .reset) (h : storesTo ch i = none) (s : State) :
    storeRead ch (effect i s).regs = storeRead ch s.regs := by
  cases i <;> cases ch <;> simp_all [effect, storesTo]

end Sys2Proof.Laws
end

