-- ==== Sys2Proof/Tests/Slice0.lean ====
section
/-! SUPPORT. The model's own tests, their results taken from spec/95_test_vectors.md and from the worked examples of the
rules, and for each statement with hypotheses a state and operands that meet them. -/

namespace Sys2Proof.Tests

open Sys2Proof.Machine Sys2Proof.Safety

/-- A live state written as the spec writes one: `(POS, THR[0], THR[1], OUT[0], OUT[1])`. -/
def st (p : Pos) (a b : Thr) (x y : Level) : State :=
  { regs := { pos := p, thrA := a, thrB := b, outA := x, outB := y }, live := true, rdCh := .a, feed := [], drawn := 0 }

/-- An unreset state (10_state.md R25). -/
def unreset : State := { st 61 99 50 0 1 with live := false }

/-- The state an outcome gives, if it gives one. -/
def stateOf : Host.Outcome State Fault Refusal → Option State
  | .next s => some s
  | .fault _ => none
  | .refused _ => none

/-- The registers after one word from a state with nothing else presented. -/
def afterWord (w : OpWord) (s : State) : Option Regs :=
  (stateOf (step { s with feed := [.edge w] })).map State.regs

/-- The result of a run, if it completes. -/
def resultOf : Host.Outcome RunResult Fault Refusal → Option RunResult
  | .next r => some r
  | .fault _ => none
  | .refused _ => none

/-! ## Encoding: words written bit by bit from 30_encoding.md R44 -/

theorem test_decode_reset : decode (.edge 0b1110_0110_0100#12) = .ok .reset := by decide
theorem test_decode_nop : decode (.edge 0b0001_1111_1111#12) = .ok .nop := by decide
theorem test_decode_seta : decode (.edge 0b0010_0001_1001#12) = .ok (.seta 25#8) := by decide
theorem test_decode_setb : decode (.edge 0b0011_1100_1000#12) = .ok (.setb 200#8) := by decide
theorem test_decode_tick : decode (.edge 0b0101_1010_0101#12) = .ok .tick := by decide
theorem test_decode_tseta : decode (.edge 0b0110_0110_0011#12) = .ok (.tseta 99#8) := by decide
theorem test_decode_tsetb : decode (.edge 0b0111_1111_1111#12) = .ok (.tsetb 255#8) := by decide
theorem test_decode_geta : decode (.read 0b0#1) = .ok .geta := by decide
theorem test_decode_getb : decode (.read 0b1#1) = .ok .getb := by decide

/-- R45's canonical words. -/
theorem test_encode_canonical :
    encode .reset = .edge 0x800#12 ∧ encode .nop = .edge 0x000#12 ∧ encode .tick = .edge 0x400#12 ∧
    encode (.seta 25#8) = .edge 0x219#12 ∧ encode (.setb 100#8) = .edge 0x364#12 ∧
    encode (.tseta 50#8) = .edge 0x632#12 ∧ encode (.tsetb 50#8) = .edge 0x732#12 ∧
    encode .geta = .read 0#1 ∧ encode .getb = .read 1#1 := by decide

/-- Numbers too wide for the port, and an edge with no word, are refused by name. -/
theorem test_decode_refusals :
    tableStimulus 16 4096 = .error .wordTooWide ∧ tableStimulus 8 2 = .error .wordTooWide ∧
    decode .unsync = .error .noWordSampled ∧ decodeTableWord 16 0x1000 = none := by decide

/-- The host's question on one word of each row: the first instruction after reset is the row's. -/
theorem test_table_rows :
    decodeTableWord 16 0x800 = some .reset ∧ decodeTableWord 16 0x000 = some .nop ∧
    decodeTableWord 16 0x2FF = some (.seta 255#8) ∧ decodeTableWord 16 0x300 = some (.setb 0#8) ∧
    decodeTableWord 16 0x400 = some .tick ∧ decodeTableWord 16 0x600 = some (.tseta 0#8) ∧
    decodeTableWord 16 0x732 = some (.tsetb 50#8) ∧ decodeTableWord 8 0 = some .geta ∧
    decodeTableWord 8 1 = some .getb := by decide

theorem test_first_step_after_reset :
    (stateOf (step (State.reset.withFetchWord 16 0x219))).map State.regs = some ⟨0, 25, 0, 1, 1⟩ ∧
    (stateOf (step (State.reset.withFetchWord 8 1))).map State.rdCh = some .b := by decide

/-! ## Well-formedness: an ill-formed term for each check (R47) -/

theorem test_wellFormed_accepts :
    [TraceLine.set .a 255, .tickSet .b 0, .init 0 255, .ticks 1000, .cycle].all TraceLine.wellFormed = true := by decide
theorem test_wellFormed_refuses_set : (TraceLine.set .a 256).wellFormed = false := by decide
theorem test_wellFormed_refuses_tickSet : (TraceLine.tickSet .b 256).wellFormed = false := by decide
theorem test_wellFormed_refuses_init_first : (TraceLine.init 256 0).wellFormed = false := by decide
theorem test_wellFormed_refuses_init_second : (TraceLine.init 0 300).wellFormed = false := by decide

/-! ## Traces (R47, R48) -/

theorem test_readLine :
    readLine "SET A, 25   ; 0x219" = some [.set .a 25] ∧ readLine "TICK+SET B, 0xfF" = some [.tickSet .b 255] ∧
    readLine "GET B" = some [.get .b] ∧ readLine "INIT 10, 50" = some [.init 10 50] ∧
    readLine "TICKP 3" = some [.tickp 3] ∧ readLine "; nothing" = some [] := by decide

theorem test_readLine_refuses :
    readLine "SET A, 256" = none ∧ readLine "SET C, 1" = none ∧ readLine "tick" = none ∧
    readLine "SET A, 1x" = none ∧ readLine "TICKS" = none ∧ readLine "SET A, 0x" = none := by decide

/-- P5: `TICKP 3` is one TICK and three NOPs; `CYCLE` is 100 ticks. -/
theorem test_expand :
    expand Config.build (.tickp 3) = [.tick, .nop, .nop, .nop] ∧ (expand Config.build .cycle).length = 100 ∧
    expand Config.build (.init 5 6) = [.reset, .seta 5#8, .setb 6#8] := by decide

/-- P3: the coinciding write equals tick-then-set and differs from set-then-tick. -/
theorem test_P3_variants :
    (resultOf (runTrace [.tseta 50#8] (st 5 5 0 0 1))).map (fun r => r.final.regs) = some ⟨6, 50, 0, 1, 1⟩ ∧
    (resultOf (runTrace [.tick, .seta 50#8] (st 5 5 0 0 1))).map (fun r => r.final.regs) = some ⟨6, 50, 0, 1, 1⟩ ∧
    (resultOf (runTrace [.seta 50#8, .tick] (st 5 5 0 0 1))).map (fun r => r.final.regs) = some ⟨6, 50, 0, 0, 1⟩ := by
  decide

/-! ## The pure functions (95_test_vectors.md 2.2) -/

theorem test_next :
    nextPos Config.build 0 = 1 ∧ nextPos Config.build 98 = 99 ∧ nextPos Config.build 99 = 0 ∧
    nextPos Config.build 100 = 0 ∧ nextPos Config.build 127 = 0 := by decide
theorem test_clamp :
    clamp Config.build 0 = 0 ∧ clamp Config.build 98 = 98 ∧ clamp Config.build 100 = 99 ∧
    clamp Config.build 128 = 99 ∧ clamp Config.build 255 = 99 := by decide
/-- The vectors a comparator that drops bit 7 of the threshold fails are among these. -/
theorem test_active :
    active Config.build 25 25 = true ∧ active Config.build 26 25 = false ∧ active Config.build 99 98 = false ∧
    active Config.build 1 128 = true ∧ active Config.build 73 200 = true ∧ active Config.build 99 255 = true := by decide
theorem test_level_both_polarities :
    level Config.build true = 0 ∧ level Config.build false = 1 ∧
    level { activeLevel := 1 } true = 1 ∧ level { activeLevel := 1 } false = 0 := by decide

/-! ## Operations (95_test_vectors.md 2.3 to 2.5) -/

theorem test_reset_suppresses_tick_and_write :
    afterWord 0xC00 (st 61 99 50 0 1) = some ⟨0, 0, 0, 1, 1⟩ ∧ afterWord 0xA19 (st 61 99 50 0 1) = some ⟨0, 0, 0, 1, 1⟩ := by
  decide
theorem test_reset_before_reset : afterWord 0x800 unreset = some ⟨0, 0, 0, 1, 1⟩ := by decide
theorem test_tick_before_reset : afterWord 0x400 unreset = none := by decide
theorem test_nop_ignores_bits : afterWord 0x1FF (st 26 25 0 1 1) = some ⟨26, 25, 0, 1, 1⟩ := by decide
theorem test_seta_keeps_output : afterWord 0x219 (st 7 0 60 1 0) = some ⟨7, 25, 60, 1, 0⟩ := by decide
theorem test_seta_out_of_range : afterWord 0x2C8 (st 7 25 60 1 0) = some ⟨7, 200, 60, 1, 0⟩ := by decide
theorem test_setb_keeps_a : afterWord 0x364 (st 7 25 60 1 0) = some ⟨7, 25, 100, 1, 0⟩ := by decide
theorem test_tick_inclusive : afterWord 0x400 (st 24 25 24 0 0) = some ⟨25, 25, 24, 0, 1⟩ := by decide
theorem test_tick_wraps : afterWord 0x400 (st 99 0 99 1 0) = some ⟨0, 0, 99, 0, 0⟩ := by decide
theorem test_tseta_uses_old : afterWord 0x663 (st 59 0 50 1 1) = some ⟨60, 99, 50, 1, 1⟩ := by decide
theorem test_tseta_stays_active : afterWord 0x60A (st 30 50 50 0 0) = some ⟨31, 10, 50, 0, 0⟩ := by decide
theorem test_tsetb_uses_old : afterWord 0x700 (st 9 25 50 0 0) = some ⟨10, 25, 0, 0, 0⟩ := by decide
theorem test_tsetb_out_of_range : afterWord 0x7FF (st 99 10 0 1 1) = some ⟨0, 10, 255, 0, 0⟩ := by decide
/-- P4: the raw stored value is read, not the clamped one. -/
theorem test_get_is_raw :
    (stateOf (exec .geta (st 7 200 100 1 0))).map rdData = some 200 ∧
    (stateOf (exec .getb (st 7 200 100 1 0))).map rdData = some 100 := by decide

/-- R95: 100 ticks of 100 µs are a cycle of 10 ms. -/
theorem test_cycle_time : Config.build.cycleMicros = 10000 := by decide

/-! ## Witnesses: the hypotheses of the statements can be met, at the boundaries of their clauses -/

theorem witness_DecodedWordRunsStepFunction :
    (st 99 0 0 1 1).live = true ∧ (0xFFF#12 : OpWord).getLsbD 11 = true ∧ unreset.live = false := by decide
theorem witness_StepRunsTheDecodedOperation :
    ({ State.reset with feed := [.edge 0x400#12, .read 1#1] } : State).feed = .edge 0x400#12 :: [.read 1#1] ∧
    decode (.edge 0x400#12) = .ok .tick ∧ decode (.read 1#1) = .ok .getb ∧
    ({ State.reset with feed := [.unsync] } : State).feed = .unsync :: [] ∧ State.reset.feed = [] := by decide
theorem witness_PlacedWordRunsNext : decodeTableWord 16 0x7FF = some (.tsetb 255#8) := by decide
theorem witness_StepsRunTheFeed :
    (resultOf (runTrace [.reset, .tseta 7#8, .getb] { unreset with feed := [.unsync] })).isSome = true := by decide
theorem witness_legal_builds :
    Config.build.Legal ∧ ({ cycleLength := 2 } : Config).Legal ∧ ({ cycleLength := 128 } : Config).Legal := by decide
theorem witness_SuccessorOfAPosition :
    Config.build.Legal ∧ Config.build.cycleLength - 1 ≤ (99 : Pos).toNat ∧ (98 : Pos).toNat < Config.build.cycleLength - 1 ∧
    (99 : Pos).toNat < Config.build.cycleLength ∧ 100 ≤ (100 : Pos).toNat := by decide
theorem witness_ClampIsMinimumAndStoreIsKept :
    Config.build.Legal ∧ Config.build.cycleLength - 1 < (100 : Thr).toNat ∧
    (99 : Thr).toNat ≤ Config.build.cycleLength - 1 := by decide
theorem witness_ComparatorIsInclusive :
    Config.build.Legal ∧ (99 : Pos).toNat < Config.build.cycleLength ∧ (99 : Pos).toNat = (99 : Thr).toNat := by decide
theorem witness_ClampIsUnobservable :
    Config.build.Legal ∧ (99 : Pos).toNat < Config.build.cycleLength := by decide
theorem witness_ResetLeavesTheResetValues : hasTick .tick = true ∧ hasTick (.tseta 1#8) = true := by decide
theorem witness_ResetCompletes : (0x800#12 : OpWord).getLsbD 11 = true := by decide
theorem witness_OnlyResetRunsBeforeReset : unreset.live = false ∧ Instr.geta ≠ .reset := by decide
/-- NopChangesNothing, SetaWritesThresholdA, SetbWritesThresholdB, GetaShowsThresholdA, GetbShowsThresholdB,
TickAdvancesThenDerives, TsetaTicksWithOldThresholds, TsetbTicksWithOldThresholds, CoincidingWriteIsTickThenSet,
OldOutputsAreNoInput, LiveMachineNeverStops, ChannelsAreIndependent, TickPeriodLeavesWhatTickLeaves and
EveryOpWordTakesOneEdge ask for a live state only. -/
theorem witness_live : State.reset.live = true ∧ (st 127 255 255 0 0).live = true := by decide
theorem witness_NopChangesNothing : (0x1FF#12 : OpWord) &&& 0xE00#12 = 0#12 := by decide
theorem witness_TickAdvancesThenDerives : (0x5A5#12 : OpWord) &&& 0xE00#12 = 0x400#12 := by decide
theorem witness_TickInPlainNumbers : (st 99 0 98 1 1).live = true ∧ (st 99 0 98 1 1).regs.pos.toNat < 100 := by decide
/-- EveryOperationKeepsItsFrame, EachRegisterHasItsOnlyWriter, PositionAfterEachOperation and
OutputsAreRecomputedAtTicksOnly ask that exec gives a next state. -/
theorem witness_exec_next :
    exec (.tseta 50#8) (st 5 5 0 0 1) = .next (st 6 50 0 1 1) ∧ exec (.setb 9#8) (st 5 5 0 0 1) = .next (st 5 5 9 0 1) ∧
    exec .reset unreset = .next (st 0 0 0 1 1) := ⟨rfl, rfl, rfl⟩
theorem witness_frame_clauses :
    Instr.nop ≠ .geta ∧ Instr.nop ≠ .getb ∧ Instr.getb ≠ .reset ∧ hasTick (.setb 9#8) = false ∧
    storesTo .a (.setb 9#8) = none ∧ storesTo .b (.setb 9#8) = some 9#8 ∧ hasTick (.tseta 50#8) = true := by decide
theorem witness_only_writer_clauses :
    (st 6 50 0 1 1).regs.pos ≠ (st 5 5 0 0 1).regs.pos ∧
    storeRead .b (st 5 5 9 0 1).regs ≠ storeRead .b (st 5 5 0 0 1).regs := by decide
theorem witness_PositionAfterEachOperation :
    exec .tick (st 99 0 0 1 1) = .next (st 0 0 0 0 0) ∧ (st 99 0 0 1 1).regs.pos.toNat < 100 := ⟨rfl, by decide⟩
/-- EveryStepKeepsInvariant: a good state whose step gives a next state, with the phase clause met at position 0. -/
theorem witness_EveryStepKeepsInvariant :
    GoodState { st 99 3 7 1 1 with feed := [.edge 0x400#12] } ∧
    step { st 99 3 7 1 1 with feed := [.edge 0x400#12] } = .next (st 0 3 7 0 0) :=
  ⟨⟨fun _ => by decide, fun _ _ => rfl⟩, rfl⟩
theorem witness_HostKeepsThresholdsInRange :
    ThresholdsInRange (st 0 100 0 1 1).regs ∧ (∀ i ∈ [Instr.seta 100#8, .tick], hostInRange i = true) ∧
    hostInRange (.seta 101#8) = false ∧
    (resultOf (runTrace [.seta 100#8, .tick] (st 0 100 0 1 1))).isSome = true := by
  refine ⟨⟨by decide, by decide⟩, by decide, by decide, by decide⟩
/-- ReadShowsTheLatestWrite, LaterTicksUseTheWrittenThreshold. -/
theorem witness_write_then_others :
    (st 5 5 0 0 1).live = true ∧ storesTo .a (.tseta 50#8) = some 50#8 ∧
    (∀ i ∈ [Instr.tick, .setb 3#8, .tsetb 4#8, .geta], i ≠ .reset ∧ storesTo .a i = none) ∧
    hasTick (.tseta 50#8) = true ∧ hasTick .tick = true := by decide
theorem witness_ReadDuringWriteShowsOldThenNew :
    (st 5 5 0 0 1).live = true ∧ storesTo .a (.seta 7#8) = some 7#8 ∧ storesTo .b (.setb 7#8) = some 7#8 ∧
    (st 5 5 0 0 1).rdCh = .a ∧ (st 5 5 0 0 1).rdCh ≠ .b := by decide
theorem witness_OutOfRangeThresholdIsAlwaysActive :
    (st 98 0 0 1 1).live = true ∧ 101 ≤ (101#8 : Thr).toNat ∧ storesTo .b (.tsetb 101#8) = some 101#8 ∧
    (∀ i ∈ [Instr.nop], i ≠ .reset ∧ storesTo .b i = none) ∧ hasTick .tick = true := by decide
theorem witness_CycleClosure :
    (st 37 1 2 0 0).live = true ∧ (st 37 1 2 0 0).regs.pos.toNat < 100 ∧
    (∀ i ∈ List.replicate 100 Instr.tick, i ≠ .reset) ∧ countTicks (List.replicate 100 .tick) = 100 ∧
    0 < countTicks [.nop, .tseta 1#8] ∧ countTicks [.nop, .tseta 1#8] < 100 :=
  ⟨by decide, by decide, fun i hi => by rw [List.eq_of_mem_replicate hi]; decide,
    Sys2Proof.Laws.countTicks_ticks 100, by decide, by decide⟩
theorem witness_EveryBuildClosesItsCycle :
    ({ cycleLength := 128 } : Config).Legal ∧ (st 127 0 0 1 1).regs.pos.toNat < ({ cycleLength := 128 } : Config).cycleLength := by
  decide
theorem witness_DutyCycleIsThresholdPlusOne :
    (st 99 0 255 0 0).live = true ∧ (st 99 0 255 0 0).regs.pos.toNat < 100 ∧
    (∀ i ∈ List.replicate 99 .tick ++ [.nop, .geta, .setb 9#8, .seta 0#8, .tsetb 3#8],
      holdsAt .a (storeRead .a (st 99 0 255 0 0).regs) i) ∧
    countTicks (List.replicate 99 .tick ++ [.nop, .geta, .setb 9#8, .seta 0#8, .tsetb 3#8]) = 100 ∧
    Instr.tseta 7#8 ≠ .reset ∧ hasTick (.tseta 7#8) = true := by
  refine ⟨by decide, by decide, fun i hi => ?_, ?_, by decide, by decide⟩
  · rcases List.mem_append.1 hi with h | h
    · rw [List.eq_of_mem_replicate h]; exact ⟨by decide, by decide⟩
    · revert h; revert i; unfold holdsAt; decide
  · rw [Sys2Proof.Laws.countTicks_append, Sys2Proof.Laws.countTicks_ticks]; decide
/-- The count passes over edges without a tick: of these three ticks from position 98 two leave channel A active. -/
theorem test_activeTicks :
    activeTicks .a [.tick, .setb 9#8, .tsetb 3#8, .nop, .tick] (st 98 1 0 1 1) = 2 := by decide
theorem witness_PulsesRiseTogetherAndFallAfterThreshold :
    (st 99 98 99 1 0).regs.pos = 99#7 ∧ (storeRead .a (st 98 98 99 0 0).regs).toNat ≤ 98 ∧
    (st 98 98 99 0 0).regs.pos.toNat = (storeRead .a (st 98 98 99 0 0).regs).toNat ∧
    99 ≤ (storeRead .b (st 98 98 99 0 0).regs).toNat ∧ (st 98 98 99 0 0).live = true := by decide
theorem witness_MidCycleChangeGivesSecondPulse :
    (st 20 10 0 1 1).live = true ∧ (st 20 10 0 1 1).regs.pos.toNat < 100 ∧
    (storeRead .a (st 20 10 0 1 1).regs).toNat < (st 20 10 0 1 1).regs.pos.toNat ∧
    (st 20 10 0 1 1).regs.pos.toNat ≤ (50#8 : Thr).toNat ∧ exec .tick (st 19 10 0 1 1) = .next (st 20 10 0 1 1) ∧
    (1 ≤ 30 ∧ 20 + 30 ≤ min (50#8 : Thr).toNat 99) ∧ ((50#8 : Thr).toNat < 20 + 31 ∧ 20 + 79 ≤ 99) ∧ 100 ≤ 20 + 80 :=
  ⟨by decide, by decide, by decide, by decide, rfl, by decide, by decide, by decide⟩

end Sys2Proof.Tests
end

/-! The step, operation by operation: the words of the feed run one after another (00_scope.md R8, 30_encoding.md R47). -/

namespace Sys2Proof.Laws

open Sys2Proof.Machine

/-- The decoder reads from the canonical word of an operation that operation (R45). -/
theorem decode_encode (i : Instr) : decode (encode i) = .ok i := by
  cases i with
  | reset => exact congrArg Except.ok (decodeOp_opWord true false false false 0#8)
  | nop => exact congrArg Except.ok (decodeOp_opWord false false false false 0#8)
  | seta v => exact congrArg Except.ok (decodeOp_opWord false false true false v)
  | setb v => exact congrArg Except.ok (decodeOp_opWord false false true true v)
  | tick => exact congrArg Except.ok (decodeOp_opWord false true false false 0#8)
  | tseta v => exact congrArg Except.ok (decodeOp_opWord false true true false v)
  | tsetb v => exact congrArg Except.ok (decodeOp_opWord false true true true v)
  | geta => rfl
  | getb => rfl

/-- A stimulus that carries a word gives the operation the word decodes to, and uses up nothing else. -/
theorem sampleStimulus_of_decode {x : Stimulus} {i : Instr} (h : decode x = .ok i) (s : State) :
    sampleStimulus x s = (i, s) := by
  cases x with
  | edge w => exact congrArg (·, s) (Except.ok.inj h)
  | read w => exact congrArg (·, s) (Except.ok.inj h)
  | unsync => cases h

/-- The oldest stimulus of the feed is the one sampled (log 1). -/
theorem sample_of_feed_cons {s : State} {x : Stimulus} {rest : List Stimulus} (h : s.feed = x :: rest) :
    sample s = sampleStimulus x { s with feed := rest } := by
  simp only [sample, h]

/-- Beyond the feed a free stimulus is sampled (log 2). -/
theorem sample_of_feed_nil {s : State} (h : s.feed = []) :
    sample s = sampleStimulus (Config.freeStimulus s.drawn) { s with drawn := s.drawn + 1 } := by
  simp only [sample, h]

/-- A step runs the operation that the oldest stimulus spells. -/
theorem step_of_feed_cons {s : State} {x : Stimulus} {rest : List Stimulus} {i : Instr}
    (hfeed : s.feed = x :: rest) (hdec : decode x = .ok i) : step s = exec i { s with feed := rest } := by
  rw [step, sample_of_feed_cons hfeed, sampleStimulus_of_decode hdec]

/-- Without synchrony a step runs a free word (R89, U15; log 3). -/
theorem step_of_feed_unsync {s : State} {rest : List Stimulus} (h : s.feed = .unsync :: rest) :
    step s = exec (decodeOp (Config.freeOpWord s.drawn)) { s with feed := rest, drawn := s.drawn + 1 } := by
  rw [step, sample_of_feed_cons h]; rfl

/-- A step from an empty feed is a step from the feed of one free stimulus, once that is drawn (log 2). -/
theorem step_of_feed_nil {s : State} (h : s.feed = []) :
    step s = step { s with feed := [Config.freeStimulus s.drawn], drawn := s.drawn + 1 } := by
  have hs : ({ s with drawn := s.drawn + 1 } : State) = { s with feed := [], drawn := s.drawn + 1 } := by
    rw [← h]
  rw [step, step, sample_of_feed_nil h, sample_of_feed_cons rfl, hs]

/-- A number that decodes to an operation is one a port can carry, and what is laid on the port spells the operation. -/
theorem decodeTableWord_eq_some {nbits w : Nat} {i : Instr} (h : decodeTableWord nbits w = some i) :
    ∃ x, tableStimulus nbits w = .ok x ∧ decode x = .ok i := by
  unfold decodeTableWord at h
  split at h
  · next x hx =>
    cases hdec : decode x with
    | ok j =>
      rw [hdec] at h
      exact ⟨x, hx, hdec.trans (congrArg Except.ok (Option.some.inj h))⟩
    | error e => rw [hdec] at h; cases h
  · cases h

/-- A number a port can carry is placed at the head of the feed (log 9). -/
theorem presentWord_of_tableStimulus {nbits w : Nat} {x : Stimulus} (h : tableStimulus nbits w = .ok x)
    (feed : List Stimulus) : presentWord nbits w feed = x :: feed := by
  simp only [presentWord, h]

/-- No operation reads or changes what the environment will present (R8; log 1). -/
theorem exec_withFeed {i : Instr} {s t : State} (h : exec i s = .next t) (l : List Stimulus) :
    exec i { s with feed := l } = .next { t with feed := l } := by
  obtain ⟨rfl, hlive | rfl⟩ := exec_next h
  · rw [exec_of_live (s := { s with feed := l }) hlive, effect_withFeed]
  · rfl

/-- A run whose first step gives a next state goes on from that state. -/
theorem core_run_succ {M : Host.Core} {s t : M.State} (h : M.step s = .next t) (k : Nat) :
    M.run (k + 1) s = M.run k t := by
  simp only [Host.Core.run, h]

end Sys2Proof.Laws

section

open Sys2Proof Sys2Proof.Machine Sys2Proof.Laws

/-- Settles O7, by induction on the operations: each step takes its operation's canonical word off the feed, and
running the operation commutes with replacing the feed. -/
theorem stepsRunTheFeed : Obligations.StepsRunTheFeed := by
  intro is
  induction is with
  | nil =>
    intro s rest r hrun
    cases hrun
    rfl
  | cons i is ih =>
    intro s rest r hrun
    obtain ⟨t, r', hexec, hrest, rfl⟩ := runTrace_cons hrun
    have htfeed : t.feed = rest := by rw [(exec_next hexec).1, effect_feed]
    have hstep : step { s with feed := (i :: is).map encode ++ rest } =
        .next { t with feed := is.map encode ++ rest } :=
      (step_of_feed_cons rfl (decode_encode i)).trans (exec_withFeed hexec _)
    subst htfeed
    exact (core_run_succ (M := core) hstep is.length).trans (ih t t.feed r' hrest)

/-- Settles O5: the three things the environment can present, one law of the step each. -/
theorem stepRunsTheDecodedOperation : Obligations.StepRunsTheDecodedOperation :=
  fun _ => ⟨fun _ _ _ => step_of_feed_cons, fun _ => step_of_feed_unsync, step_of_feed_nil⟩

/-- Settles O6: the placed word is the oldest stimulus, and taking it off the feed gives the state it was placed in. -/
theorem placedWordRunsNext : Obligations.PlacedWordRunsNext := by
  intro s nbits w i h
  obtain ⟨x, hx, hdec⟩ := decodeTableWord_eq_some h
  exact step_of_feed_cons (presentWord_of_tableStimulus hx s.feed) hdec

end

/-! The state under operations (10_state.md): every operation but RESET is a tick event, if it contains one, and then a
write to the store, if it orders one (R12, R20, R44); what each part leaves of the position and the outputs. -/

namespace Sys2Proof.Laws

open Sys2Proof.Machine Sys2Proof.Safety

/-- The tick event an operation contains, on the registers (R12, R60). -/
def tickPart (i : Instr) (r : Regs) : Regs := if hasTick i then tickRegs Config.build r else r

/-- The write to the store an operation orders, on the registers (R10, R30). -/
def writePart : Instr → Regs → Regs
  | .seta v | .tseta v => storeWrite .a v
  | .setb v | .tsetb v => storeWrite .b v
  | .reset | .nop | .tick | .geta | .getb => id

/-- What an operation but RESET does to the registers is read from the registers alone: the tick, then the write. -/
theorem effect_withRegs {i : Instr} (hi : i ≠ .reset) (s : State) (r : Regs) :
    effect i { s with regs := r } = { effect i s with regs := writePart i (tickPart i r) } := by
  cases i with
  | reset => exact absurd rfl hi
  | nop | seta _ | setb _ | tick | tseta _ | tsetb _ | geta | getb => rfl

theorem effect_regs {i : Instr} (hi : i ≠ .reset) (s : State) :
    (effect i s).regs = writePart i (tickPart i s.regs) :=
  congrArg State.regs (effect_withRegs hi s s.regs)

@[simp] theorem effect_reset_regs (s : State) : (effect .reset s).regs = Regs.reset Config.build := rfl

theorem tickPart_of_tick {i : Instr} (h : hasTick i = true) (r : Regs) :
    tickPart i r = tickRegs Config.build r := if_pos h

theorem tickPart_of_no_tick {i : Instr} (h : hasTick i = false) (r : Regs) : tickPart i r = r := by
  rw [tickPart, h]; rfl

@[simp] theorem writePart_pos (i : Instr) (r : Regs) : (writePart i r).pos = r.pos := by
  cases i <;> rfl

@[simp] theorem outReg_writePart (ch : Channel) (i : Instr) (r : Regs) :
    outReg ch (writePart i r) = outReg ch r := by
  cases i <;> cases ch <;> rfl

theorem outReg_tickRegs (c : Config) (ch : Channel) (r : Regs) :
    outReg ch (tickRegs c r) = level c (active c (nextPos c r.pos) (storeRead ch r)) := by
  cases ch <;> rfl

/-- RESET contains no tick (R12). -/
theorem ne_reset_of_hasTick {i : Instr} (h : hasTick i = true) : i ≠ .reset := by
  rintro rfl
  cases h

/-- A tick advances the position, whatever is written at the same edge (R12). -/
theorem effect_pos_of_tick {i : Instr} (h : hasTick i = true) (s : State) :
    (effect i s).regs.pos = nextPos Config.build s.regs.pos := by
  rw [effect_regs (ne_reset_of_hasTick h), writePart_pos, tickPart_of_tick h, tickRegs_pos]

/-- Without a tick or a reset the position is kept (R12). -/
theorem effect_pos_kept {i : Instr} (hi : i ≠ .reset) (h : hasTick i = false) (s : State) :
    (effect i s).regs.pos = s.regs.pos := by
  rw [effect_regs hi, writePart_pos, tickPart_of_no_tick h]

/-- A tick derives each output from the new position and the threshold before the edge (R20, R62). -/
theorem outReg_effect_of_tick {i : Instr} (h : hasTick i = true) (ch : Channel) (s : State) :
    outReg ch (effect i s).regs =
      level Config.build (active Config.build (effect i s).regs.pos (storeRead ch s.regs)) := by
  rw [effect_pos_of_tick h, effect_regs (ne_reset_of_hasTick h), outReg_writePart, tickPart_of_tick h,
    outReg_tickRegs]

/-- Without a tick or a reset each output is kept, whatever is written to the store (R20). -/
theorem outReg_effect_kept {i : Instr} (hi : i ≠ .reset) (h : hasTick i = false) (ch : Channel) (s : State) :
    outReg ch (effect i s).regs = outReg ch s.regs := by
  rw [effect_regs hi, outReg_writePart, tickPart_of_no_tick h]

/-- No operation but RESET makes an unreset machine live (R25). -/
theorem effect_live_eq {i : Instr} (hi : i ≠ .reset) (s : State) : (effect i s).live = s.live := by
  cases i with
  | reset => exact absurd rfl hi
  | nop | seta _ | setb _ | tick | tseta _ | tsetb _ | geta | getb => rfl

/-! ### The position in numbers -/

/-- The successor of any counter pattern is a position of the cycle (R55). -/
theorem nextPos_lt (c : Config) (hc : c.Legal) (p : Pos) : (nextPos c p).toNat < c.cycleLength := by
  have h2 : 2 ≤ c.cycleLength := hc.1
  rw [nextPos_toNat c hc]
  split <;> omega

/-- On the positions of a cycle the successor is the one modulo CYCLE_LENGTH (R55). -/
theorem nextPos_toNat_of_lt (c : Config) (hc : c.Legal) {p : Pos} (hp : p.toNat < c.cycleLength) :
    (nextPos c p).toNat = (p.toNat + 1) % c.cycleLength := by
  rw [nextPos_toNat c hc]
  split
  · rw [show p.toNat + 1 = c.cycleLength by omega, Nat.mod_self]
  · rw [Nat.mod_eq_of_lt (by omega)]

/-- Every operation leaves a position of the cycle where it finds one (R12, R13). -/
theorem effect_pos_lt {s : State} (h : s.regs.pos.toNat < 100) (i : Instr) :
    (effect i s).regs.pos.toNat < 100 := by
  by_cases hi : i = .reset
  · subst hi; exact Nat.zero_lt_succ 99
  cases htick : hasTick i with
  | true => rw [effect_pos_of_tick htick]; exact nextPos_lt _ build_legal _
  | false => rwa [effect_pos_kept hi htick]

/-- At position 0 every threshold is active (R57, R68). -/
theorem active_zero (c : Config) (t : Thr) : active c 0#7 t = true :=
  (active_iff c 0#7 t).2 (Nat.zero_le _)

/-! ### The old outputs are no input -/

/-- The registers with other outputs (R19). -/
def withOutputs (x y : Level) (r : Regs) : Regs := { r with outA := x, outB := y }

theorem tickRegs_withOutputs (c : Config) (x y : Level) (r : Regs) :
    tickRegs c (withOutputs x y r) = tickRegs c r := rfl

theorem writePart_withOutputs (i : Instr) (x y : Level) (r : Regs) :
    writePart i (withOutputs x y r) = withOutputs x y (writePart i r) := by
  cases i <;> rfl

/-- After a tick or a reset nothing depends on the old outputs (R19). -/
theorem effect_withOutputs_of_tick_or_reset {i : Instr} (h : hasTick i = true ∨ i = .reset) (x y : Level)
    (s : State) : effect i { s with regs := withOutputs x y s.regs } = effect i s := by
  obtain htick | rfl := h
  · have hi := ne_reset_of_hasTick htick
    calc effect i { s with regs := withOutputs x y s.regs }
        = { effect i s with regs := writePart i (tickPart i s.regs) } := by
          rw [effect_withRegs hi, tickPart_of_tick htick, tickPart_of_tick htick, tickRegs_withOutputs]
      _ = effect i s := (effect_withRegs hi s s.regs).symm
  · rfl

/-- Without a tick or a reset the old outputs are carried over and reach nothing else (R19, R20). -/
theorem effect_withOutputs_kept {i : Instr} (hi : i ≠ .reset) (h : hasTick i = false) (x y : Level) (s : State) :
    effect i { s with regs := withOutputs x y s.regs } =
      { effect i s with regs := withOutputs x y (effect i s).regs } := by
  rw [effect_withRegs hi, effect_regs hi, tickPart_of_no_tick h, tickPart_of_no_tick h, writePart_withOutputs]

/-! ### The invariant (R13, R68) -/

/-- Before the first RESET the invariant asks nothing (R25). -/
theorem goodState_of_not_live {s : State} (h : s.live = false) : GoodState s where
  posInRange hlive := absurd hlive (by simp [h])
  phaseAligned hlive := absurd hlive (by simp [h])

/-- The reset values meet the invariant: position 0, both outputs inactive (R24). -/
theorem goodState_of_reset_regs {s : State} (h : s.regs = Regs.reset Config.build) : GoodState s where
  posInRange _ := by rw [h]; decide
  phaseAligned _ _ := by rw [h]; rfl

/-- The invariant speaks of the registers and of the first RESET only. -/
theorem goodState_congr {s t : State} (hregs : t.regs = s.regs) (hlive : t.live = s.live) (h : GoodState s) :
    GoodState t where
  posInRange := by rw [PosInRange, hregs, hlive]; exact h.posInRange
  phaseAligned := by rw [PhaseAligned, hregs, hlive]; exact h.phaseAligned

/-- A tick leaves the invariant, whatever it finds: at position 0 both channels are active (R55, R68). -/
theorem goodState_effect_of_tick {i : Instr} (h : hasTick i = true) (s : State) : GoodState (effect i s) where
  posInRange _ := by rw [effect_pos_of_tick h]; exact nextPos_lt _ build_legal _
  phaseAligned _ hpos := by
    have hout : ∀ ch, outReg ch (effect i s).regs = level Config.build true := fun ch => by
      rw [outReg_effect_of_tick h, hpos, active_zero]
    exact (hout .a).trans (hout .b).symm

/-- Without a tick or a reset position and outputs are kept, and the invariant with them. -/
theorem goodState_effect_kept {i : Instr} (hi : i ≠ .reset) (htick : hasTick i = false) {s : State}
    (h : GoodState s) : GoodState (effect i s) where
  posInRange := by
    rw [PosInRange, effect_pos_kept hi htick, effect_live_eq hi]; exact h.posInRange
  phaseAligned := by
    have hout := outReg_effect_kept hi htick (s := s)
    rw [PhaseAligned, effect_pos_kept hi htick, effect_live_eq hi, ← outReg_a, ← outReg_b, hout, hout]
    exact h.phaseAligned

/-- Every operation keeps the invariant. -/
theorem goodState_effect {s : State} (h : GoodState s) (i : Instr) : GoodState (effect i s) := by
  by_cases hi : i = .reset
  · subst hi; exact goodState_of_reset_regs (effect_reset_regs s)
  cases htick : hasTick i with
  | true => exact goodState_effect_of_tick htick s
  | false => exact goodState_effect_kept hi htick h

/-- Taking a stimulus, a free one too, leaves the registers alone and is no RESET. -/
theorem sampleStimulus_regs_live (x : Stimulus) (s : State) :
    (sampleStimulus x s).2.regs = s.regs ∧ (sampleStimulus x s).2.live = s.live := by
  cases x <;> exact ⟨rfl, rfl⟩

/-- Sampling the ports leaves the registers alone and is no RESET, whether or not the feed is used up. -/
theorem sample_regs_live (s : State) : (sample s).2.regs = s.regs ∧ (sample s).2.live = s.live := by
  cases hfeed : s.feed with
  | nil => rw [sample_of_feed_nil hfeed]; exact sampleStimulus_regs_live _ _
  | cons x rest => rw [sample_of_feed_cons hfeed]; exact sampleStimulus_regs_live _ _

/-! ### Invariants of runs, and the host's duty (R16, R86) -/

/-- What the operations of a run each keep, the run keeps. -/
theorem runTrace_keeps {P : State → Prop} {is : List Instr}
    (hkeep : ∀ i ∈ is, ∀ s, P s → P (effect i s)) {s : State} {r : RunResult} (hs : P s)
    (hrun : runTrace is s = .next r) : P r.final := by
  induction is generalizing s r with
  | nil => cases hrun; exact hs
  | cons i is ih =>
    obtain ⟨t, r', hexec, hrest, rfl⟩ := runTrace_cons hrun
    obtain ⟨rfl, -⟩ := exec_next hexec
    rw [List.forall_mem_cons] at hkeep
    obtain ⟨hi, his⟩ := hkeep
    exact ih (r := r') his (hi s hs) hrest

/-- A tick writes no threshold (R82). -/
theorem thresholdsInRange_tickPart {r : Regs} (h : ThresholdsInRange r) (i : Instr) :
    ThresholdsInRange (tickPart i r) := by
  cases htick : hasTick i with
  | true => rw [tickPart_of_tick htick]; exact h
  | false => rwa [tickPart_of_no_tick htick]

/-- A write of the host's within [0, 100] keeps the thresholds there. -/
theorem thresholdsInRange_writePart {i : Instr} (hi : hostInRange i = true) {r : Regs}
    (h : ThresholdsInRange r) : ThresholdsInRange (writePart i r) := by
  obtain ⟨hA, hB⟩ := h
  cases i with
  | seta v | tseta v => exact ⟨of_decide_eq_true hi, hB⟩
  | setb v | tsetb v => exact ⟨hA, of_decide_eq_true hi⟩
  | reset | nop | tick | geta | getb => exact ⟨hA, hB⟩

theorem thresholdsInRange_effect {i : Instr} (hi : hostInRange i = true) {s : State}
    (h : ThresholdsInRange s.regs) : ThresholdsInRange (effect i s).regs := by
  by_cases hreset : i = .reset
  · subst hreset; exact ⟨Nat.zero_le _, Nat.zero_le _⟩
  · rw [effect_regs hreset]
    exact thresholdsInRange_writePart hi (thresholdsInRange_tickPart h i)

end Sys2Proof.Laws

section

open Sys2Proof Sys2Proof.Machine Sys2Proof.Safety Sys2Proof.Laws

/-- Settles O32: sampling touches nothing the invariant speaks of, and every operation's effect keeps it. -/
theorem everyStepKeepsInvariant : Obligations.EveryStepKeepsInvariant := by
  intro s t hgood hstep
  obtain ⟨hregs, hlive⟩ := sample_regs_live s
  obtain ⟨rfl, -⟩ := exec_next hstep
  exact goodState_effect (goodState_congr hregs hlive hgood) _

/-- Settles O15: every operation but RESET stands behind the gate, which is closed before the first RESET. -/
theorem onlyResetRunsBeforeReset : Obligations.OnlyResetRunsBeforeReset := by
  intro i s hlive
  refine ⟨fun hi => ?_, ?_⟩
  · rw [exec_eq_onLive hi, onLive_of_not_live hlive]
  · rintro rfl
    exact ⟨effect .reset s, exec_reset s, rfl, rfl⟩

/-- Settles O28, from the position each kind of operation leaves. -/
theorem positionAfterEachOperation : Obligations.PositionAfterEachOperation := by
  intro i s t hexec
  obtain ⟨rfl, -⟩ := exec_next hexec
  refine ⟨?_, fun htick => ⟨effect_pos_of_tick htick s, fun hpos => ?_⟩,
    fun hi htick => effect_pos_kept hi htick s, fun hpos => effect_pos_lt hpos i⟩
  · rintro rfl; rfl
  · rw [effect_pos_of_tick htick]
    exact nextPos_toNat_of_lt Config.build build_legal hpos

/-- Settles O29, from the outputs each kind of operation leaves. -/
theorem outputsAreRecomputedAtTicksOnly : Obligations.OutputsAreRecomputedAtTicksOnly := by
  intro i s t ch hexec
  obtain ⟨rfl, -⟩ := exec_next hexec
  exact ⟨fun htick => outReg_effect_of_tick htick ch s, fun htick hi => outReg_effect_kept hi htick ch s⟩

/-- Settles O30: a tick and a reset overwrite the outputs unread, and every other operation carries them over. -/
theorem oldOutputsAreNoInput : Obligations.OldOutputsAreNoInput := by
  intro i s x y hlive
  have hexec := exec_of_live (s := { s with regs := withOutputs x y s.regs }) hlive i
  exact ⟨effect i s, _, exec_of_live hlive i, hexec, fun h => effect_withOutputs_of_tick_or_reset h x y s,
    fun htick hi => effect_withOutputs_kept hi htick x y s⟩

/-- Settles O34: each operation of a host that keeps its duty keeps the thresholds in range, so the run does. -/
theorem hostKeepsThresholdsInRange : Obligations.HostKeepsThresholdsInRange :=
  fun _ _ _ hs hhost hrun =>
    runTrace_keeps (P := fun s => ThresholdsInRange s.regs)
      (fun i hi _ => thresholdsInRange_effect (hhost i hi)) hs hrun

/-- Settles O13: the reset values do not depend on the state before; position 0 is active under threshold 0, where the
outputs hold the inactive level until the first tick derives them. -/
theorem resetLeavesTheResetValues : Obligations.ResetLeavesTheResetValues := by
  refine ⟨by decide, rfl, rfl, fun s => ?_, fun c => ?_⟩
  · refine ⟨effect .reset s, exec_reset s, rfl, fun i c htick => ?_⟩
    exact ⟨_, exec_of_live rfl i, outReg_effect_of_tick htick c (effect .reset s)⟩
  · have hpos : State.reset.regs.pos = 0#7 := rfl
    rw [hpos, active_zero]
    cases c <;> decide

/-- Settles O31: the reset values meet the invariant, and at power-on no RESET has been executed. -/
theorem resetStateMeetsInvariant : Obligations.ResetStateMeetsInvariant :=
  ⟨goodState_of_reset_regs rfl, goodState_of_not_live rfl⟩

end

/-! The store over a run (20_memory.md R34 to R36): the latest write to an entry is what stands there when the run comes to
its last operation, be that a read or a tick. -/

namespace Sys2Proof.Laws

open Sys2Proof.Machine Sys2Proof.Safety

/-- An operation that stores to an entry stores to no other (R31). -/
theorem storesTo_other {ch ch' : Channel} {v : Thr} {i : Instr} (h : storesTo ch i = some v) (hne : ch' ≠ ch) :
    storesTo ch' i = none := by
  cases i with
  | seta x | setb x | tseta x | tsetb x =>
    obtain ⟨rfl, -⟩ := Option.ite_none_right_eq_some.1 h
    exact if_neg hne
  | reset | nop | tick | geta | getb => rfl

/-- RESET is no store at the host's order (R24, R26). -/
theorem ne_reset_of_storesTo {ch : Channel} {v : Thr} {i : Instr} (h : storesTo ch i = some v) : i ≠ .reset := by
  rintro rfl
  cases h

/-- Only a read moves the line `rd_ch` (R42; log 6). -/
theorem effect_rdCh_kept {i : Instr} (ha : i ≠ .geta) (hb : i ≠ .getb) (s : State) :
    (effect i s).rdCh = s.rdCh := by
  cases i with
  | geta => exact absurd rfl ha
  | getb => exact absurd rfl hb
  | reset | nop | seta _ | setb _ | tick | tseta _ | tsetb _ => rfl

/-- After a store `rd_data` shows the entry it showed before, as it stands after the edge (R36). -/
theorem rdData_effect_of_storesTo {ch : Channel} {v : Thr} {i : Instr} (h : storesTo ch i = some v) (s : State) :
    rdData (effect i s) = storeRead s.rdCh (effect i s).regs := by
  have ha : i ≠ .geta := by rintro rfl; cases h
  have hb : i ≠ .getb := by rintro rfl; cases h
  rw [rdData, effect_rdCh_kept ha hb]

/-- A read puts its channel on the line `rd_ch` and does nothing else (R52, R53). -/
theorem effect_getFor (ch : Channel) (s : State) : effect (getFor ch) s = { s with rdCh := ch } := by
  cases ch <;> rfl

/-- Operations that neither store to an entry nor reset keep it over a run (R34). -/
theorem storeRead_runTrace_kept {ch : Channel} {is : List Instr}
    (his : ∀ i ∈ is, i ≠ .reset ∧ storesTo ch i = none) {s : State} {r : RunResult}
    (hrun : runTrace is s = .next r) : storeRead ch r.final.regs = storeRead ch s.regs :=
  runTrace_keeps (P := fun t => storeRead ch t.regs = storeRead ch s.regs)
    (fun i hi t ht =>
      have ⟨hreset, hstore⟩ := his i hi
      (storeRead_effect_kept hreset hstore t).trans ht) rfl hrun

/-- A run ends with the effect of its last operation on the state the run without it ends in. -/
theorem runTrace_concat {s : State} (h : s.live = true) (is : List Instr) (j : Instr) :
    ∃ r r', runTrace is s = .next r ∧ runTrace (is ++ [j]) s = .next r' ∧ r'.final = effect j r.final :=
  ⟨_, _, runTrace_of_live is h, runTrace_of_live (is ++ [j]) h, List.foldl_concat _ _ _ _⟩

/-- The last operation of a run finds in an entry the latest write to it (R34, R35). -/
theorem runTrace_concat_after_store {ch : Channel} {v : Thr} {w : Instr} {is : List Instr} {s : State}
    (hlive : s.live = true) (hw : storesTo ch w = some v) (his : ∀ i ∈ is, i ≠ .reset ∧ storesTo ch i = none)
    (j : Instr) :
    ∃ r t, runTrace (w :: is ++ [j]) s = .next r ∧ r.final = effect j t ∧ storeRead ch t.regs = v := by
  obtain ⟨r, r', hrun, hrun', hfinal⟩ := runTrace_concat hlive (w :: is) j
  obtain ⟨t, r₁, hexec, hrest, rfl⟩ := runTrace_cons hrun
  obtain ⟨rfl, -⟩ := exec_next hexec
  exact ⟨r', r₁.final, hrun', hfinal, (storeRead_runTrace_kept his hrest).trans (storeRead_effect_stored hw s)⟩

end Sys2Proof.Laws

section

open Sys2Proof Sys2Proof.Machine Sys2Proof.Safety Sys2Proof.Laws

/-- Settles O35: the read finds the latest write in its entry, and moves only the line that shows the entry. -/
theorem readShowsTheLatestWrite : Obligations.ReadShowsTheLatestWrite := by
  intro ch v w is s hlive hw his
  obtain ⟨r, t, hrun, hfinal, hstored⟩ := runTrace_concat_after_store hlive hw his (getFor ch)
  rw [effect_getFor] at hfinal
  exact ⟨r, hrun, by rw [hfinal]; exact hstored, by rw [hfinal]; exact hstored⟩

/-- Settles O36: a store leaves `rd_ch` alone, so `rd_data` follows the entry it showed, written or not. -/
theorem readDuringWriteShowsOldThenNew : Obligations.ReadDuringWriteShowsOldThenNew := by
  intro ch v w s hlive hw
  refine ⟨effect w s, exec_of_live hlive w, rfl, ?_, fun hne => ?_⟩
  · rintro rfl
    rw [rdData_effect_of_storesTo hw, storeRead_effect_stored hw]
  · rw [rdData_effect_of_storesTo hw, storeRead_effect_kept (ne_reset_of_storesTo hw) (storesTo_other hw hne)]
    rfl

/-- Settles O37: a tick compares with the threshold before its edge, which is the old one at the write's own edge and
the latest write at every later one. -/
theorem laterTicksUseTheWrittenThreshold : Obligations.LaterTicksUseTheWrittenThreshold := by
  intro ch v w j is s hlive hw his htick
  obtain ⟨r, t, hrun, hfinal, hstored⟩ := runTrace_concat_after_store hlive hw his j
  refine ⟨⟨effect w s, exec_of_live hlive w, fun hwtick => outReg_effect_of_tick hwtick ch s⟩, r, hrun, ?_⟩
  rw [hfinal, outReg_effect_of_tick htick, hstored]

end

/-! The operation word and the operation map (30_encoding.md R44, R45): a word is as good as its fields, so masks, canonical
words and the field-by-field step are read off the fields. -/

namespace Sys2Proof.Laws

open Sys2Proof.Machine Sys2Proof.Safety

/-! ### The fields of a word built of fields -/

/-- The bits of a word, field by field (R41). -/
theorem getLsbD_opWord (rst tick wrEn : Bool) (ch : BitVec 1) (v : Thr) (n : Nat) :
    (opWord rst tick wrEn ch v).getLsbD n =
      if n < 8 then v.getLsbD n
      else if n - 8 < 1 then ch.getLsbD (n - 8)
      else if n - 8 - 1 < 1 then (BitVec.ofBool wrEn).getLsbD (n - 8 - 1)
      else if n - 8 - 1 - 1 < 1 then (BitVec.ofBool tick).getLsbD (n - 8 - 1 - 1)
      else (BitVec.ofBool rst).getLsbD (n - 8 - 1 - 1 - 1) := by
  simp only [← BitVec.getLsbD_append]
  rfl

@[simp] theorem opRst_opWord (rst tick wrEn : Bool) (ch : BitVec 1) (v : Thr) :
    opRst (opWord rst tick wrEn ch v) = rst := by
  rw [opRst, getLsbD_opWord]; simp

@[simp] theorem opTick_opWord (rst tick wrEn : Bool) (ch : BitVec 1) (v : Thr) :
    opTick (opWord rst tick wrEn ch v) = tick := by
  rw [opTick, getLsbD_opWord]; simp

@[simp] theorem opWrEn_opWord (rst tick wrEn : Bool) (ch : BitVec 1) (v : Thr) :
    opWrEn (opWord rst tick wrEn ch v) = wrEn := by
  rw [opWrEn, getLsbD_opWord]; simp

@[simp] theorem getLsbD_eight_opWord (rst tick wrEn ch : Bool) (v : Thr) :
    (opWord rst tick wrEn (BitVec.ofBool ch) v).getLsbD 8 = ch := by
  rw [getLsbD_opWord]; simp

@[simp] theorem setWidth_opWord (rst tick wrEn : Bool) (ch : BitVec 1) (v : Thr) :
    (opWord rst tick wrEn ch v).setWidth 8 = v :=
  BitVec.setWidth_append_eq_right

/-- Words are equal exactly when their fields are (R41). -/
theorem opWord_inj {rst tick wrEn ch rst' tick' wrEn' ch' : Bool} {v v' : Thr} :
    opWord rst tick wrEn (BitVec.ofBool ch) v = opWord rst' tick' wrEn' (BitVec.ofBool ch') v' ↔
      rst = rst' ∧ tick = tick' ∧ wrEn = wrEn' ∧ ch = ch' ∧ v = v' := by
  constructor
  · intro h
    have hr := congrArg opRst h
    have ht := congrArg opTick h
    have he := congrArg opWrEn h
    have hc := congrArg (BitVec.getLsbD · 8) h
    have hv := congrArg (BitVec.setWidth 8) h
    simp only [opRst_opWord, opTick_opWord, opWrEn_opWord, getLsbD_eight_opWord, setWidth_opWord]
      at hr ht he hc hv
    exact ⟨hr, ht, he, hc, hv⟩
  · rintro ⟨rfl, rfl, rfl, rfl, rfl⟩
    rfl

/-- A mask works field by field. -/
theorem opWord_and_opWord (rst tick wrEn rst' tick' wrEn' : Bool) (ch ch' : BitVec 1) (v v' : Thr) :
    opWord rst tick wrEn ch v &&& opWord rst' tick' wrEn' ch' v' =
      opWord (rst && rst') (tick && tick') (wrEn && wrEn') (ch &&& ch') (v &&& v') := by
  refine BitVec.eq_of_getLsbD_eq fun n _ => ?_
  simp only [BitVec.getLsbD_and, getLsbD_opWord, ← BitVec.ofBool_and_ofBool]
  split_ifs <;> rfl

/-! ### The rows of the operation map (R44) -/

/-- The store rows: all four control bits are fixed, and the operand is `wr_data`. -/
theorem instrOfFields_eq_store_iff {rst tick wrEn ch tick' ch' : Bool} {v v' : Thr} :
    instrOfFields rst tick wrEn ch v = instrOfFields false tick' true ch' v' ↔
      rst = false ∧ tick = tick' ∧ wrEn = true ∧ ch = ch' ∧ v' = v := by
  cases rst
  · cases wrEn
    · cases tick <;> cases tick' <;> cases ch' <;> simp [instrOfFields]
    · cases tick <;> cases tick' <;> cases ch <;> cases ch' <;> simp [instrOfFields, eq_comm]
  · cases tick' <;> cases ch' <;> simp [instrOfFields]

/-- The rows of NOP and TICK: `wr_ch` and `wr_data` are ignored. -/
theorem instrOfFields_eq_no_store_iff {rst tick wrEn ch tick' ch' : Bool} {v v' : Thr} :
    instrOfFields rst tick wrEn ch v = instrOfFields false tick' false ch' v' ↔
      rst = false ∧ tick = tick' ∧ wrEn = false := by
  cases rst
  · cases wrEn
    · cases tick <;> cases tick' <;> simp [instrOfFields]
    · cases tick <;> cases tick' <;> cases ch <;> simp [instrOfFields]
  · cases tick' <;> simp [instrOfFields]

/-- RESET's row: all other fields are ignored (R79). -/
theorem instrOfFields_eq_reset_iff {rst tick wrEn ch : Bool} {v : Thr} :
    instrOfFields rst tick wrEn ch v = .reset ↔ rst = true := by
  cases rst
  · cases tick <;> cases wrEn <;> cases ch <;> simp [instrOfFields]
  · simp [instrOfFields]

theorem decodeOp_eq_reset_iff (w : OpWord) : decodeOp w = .reset ↔ w &&& 0x800#12 = 0x800#12 := by
  obtain ⟨r, t, e, c, v, rfl⟩ := exists_fields w
  have hmask : (0x800#12 : OpWord) = opWord true false false (BitVec.ofBool false) 0#8 := rfl
  rw [decodeOp_opWord, instrOfFields_eq_reset_iff, hmask, opWord_and_opWord,
    BitVec.ofBool_and_ofBool, opWord_inj]
  simp

theorem decodeOp_eq_no_store_iff (w : OpWord) (tick : Bool) :
    decodeOp w = instrOfFields false tick false false 0#8 ↔
      w &&& 0xE00#12 = opWord false tick false (BitVec.ofBool false) 0#8 := by
  obtain ⟨r, t, e, c, v, rfl⟩ := exists_fields w
  have hmask : (0xE00#12 : OpWord) = opWord true true true (BitVec.ofBool false) 0#8 := rfl
  rw [decodeOp_opWord, instrOfFields_eq_no_store_iff, hmask, opWord_and_opWord,
    BitVec.ofBool_and_ofBool, opWord_inj]
  simp

theorem decodeOp_eq_store_iff (w : OpWord) (tick ch : Bool) (v : Thr) :
    decodeOp w = instrOfFields false tick true ch v ↔
      w &&& 0xF00#12 = opWord false tick true (BitVec.ofBool ch) 0#8 ∧ v = w.setWidth 8 := by
  obtain ⟨r, t, e, c, u, rfl⟩ := exists_fields w
  rw [decodeOp_opWord, instrOfFields_eq_store_iff, opWord_control_bits, opWord_inj, setWidth_opWord]
  simp only [and_true, and_assoc]

/-- Each read word selects its row (R42, R44). -/
theorem decodeRd_rows (w : RdWord) :
    (decodeRd w = .geta ↔ w &&& 0x1#1 = 0x0#1) ∧ (decodeRd w = .getb ↔ w &&& 0x1#1 = 0x1#1) := by
  revert w; decide

/-! ### Canonical words (R45) -/

/-- The data of a word is added to its control bits. -/
theorem opWord_eq_add_data (rst tick wrEn : Bool) (ch : BitVec 1) (v : Thr) :
    opWord rst tick wrEn ch v = opWord rst tick wrEn ch 0#8 + v.setWidth 12 := by
  have htoNat : ∀ u : Thr, (opWord rst tick wrEn ch u).toNat =
      (BitVec.ofBool rst ++ BitVec.ofBool tick ++ BitVec.ofBool wrEn ++ ch).toNat * 2 ^ 8 + u.toNat := fun u => by
    rw [← Nat.shiftLeft_eq, Nat.shiftLeft_add_eq_or_of_lt u.isLt, ← BitVec.toNat_append]
    rfl
  have hlt := (opWord rst tick wrEn ch v).isLt
  rw [htoNat] at hlt
  apply BitVec.eq_of_toNat_eq
  rw [BitVec.toNat_add, htoNat, htoNat, BitVec.toNat_setWidth, BitVec.toNat_ofNat]
  omega

/-- The canonical word of an operation that is no read is an OP word. -/
theorem encode_eq_edge {i : Instr} (ha : i ≠ .geta) (hb : i ≠ .getb) : ∃ w, encode i = .edge w := by
  cases i with
  | geta => exact absurd rfl ha
  | getb => exact absurd rfl hb
  | reset | nop | seta _ | setb _ | tick | tseta _ | tsetb _ => exact ⟨_, rfl⟩

/-- Every word has a canonical form, which decodes to the same operation (R45). -/
theorem exists_canonical (w : OpWord) : ∃ w', encode (decodeOp w) = .edge w' ∧ decodeOp w' = decodeOp w := by
  obtain ⟨ha, hb⟩ := decodeOp_not_read w
  obtain ⟨w', hw'⟩ := encode_eq_edge ha hb
  have hdec := decode_encode (decodeOp w)
  rw [hw'] at hdec
  exact ⟨w', hw', Except.ok.inj hdec⟩

/-! ### The field-by-field step (R44) -/

/-- R44's step on the fields: `rst`, or else the tick on the old thresholds and then the write. -/
theorem wordStep_opWord (cfg : Config) (r : Regs) (rst tick wrEn ch : Bool) (v : Thr) :
    wordStep cfg r (opWord rst tick wrEn (BitVec.ofBool ch) v) =
      if rst then Regs.reset cfg
      else (if wrEn then storeWrite (channelOfBit ch) v else id) (if tick then tickRegs cfg r else r) := by
  -- the guards of R44's step, and its operand, are the fields of the word
  change (if opRst _ then Regs.reset cfg
    else if opWrEn _ then
      if BitVec.getLsbD _ 8 then storeWrite .b _ (if opTick _ then tickRegs cfg r else r)
      else storeWrite .a _ (if opTick _ then tickRegs cfg r else r)
    else if opTick _ then tickRegs cfg r else r) = _
  rw [opRst_opWord, opTick_opWord, opWrEn_opWord, getLsbD_eight_opWord, setWidth_opWord]
  cases wrEn <;> cases ch <;> rfl

/-- The effect of a decoded word is the word's field-by-field step on the registers (R44). -/
theorem effect_decodeOp (s : State) (w : OpWord) :
    effect (decodeOp w) s =
      { s with regs := wordStep Config.build s.regs w, live := s.live || opRst w } := by
  obtain ⟨rst, tick, wrEn, ch, v, rfl⟩ := exists_fields w
  rw [decodeOp_opWord, wordStep_opWord, opRst_opWord]
  cases rst with
  | true => rw [Bool.or_true]; rfl
  | false =>
    rw [Bool.or_false]
    cases tick <;> cases wrEn <;> cases ch <;> rfl

/-! ### Runs of NOP (R48, R72) -/

/-- A run of NOPs ends where it began, and the pins hold at each of its edges. -/
theorem runTrace_nops {s : State} (h : s.live = true) (k : Nat) :
    runTrace (List.replicate k .nop) s =
      .next { final := s, pins := List.replicate k (outPin .a s, outPin .b s) } := by
  induction k with
  | zero => rfl
  | succ k ih =>
    have hnop : exec .nop s = .next s := exec_of_live h .nop
    simp only [List.replicate_succ, runTrace, hnop, ih]
    rfl

end Sys2Proof.Laws

section

open Sys2Proof Sys2Proof.Machine Sys2Proof.Safety Sys2Proof.Laws

/-- Settles O1: the canonical words are their control bits with the data added; encoding keeps the operation, so a word
and its canonical form decode alike and run alike. -/
theorem canonicalWordsRoundTrip : Obligations.CanonicalWordsRoundTrip := by
  refine ⟨⟨rfl, rfl, rfl, fun v => ?_⟩, fun _ => rfl, by decide, decode_encode, fun w => ?_⟩
  · exact ⟨congrArg Stimulus.edge (opWord_eq_add_data false false true _ v),
      congrArg Stimulus.edge (opWord_eq_add_data false false true _ v),
      congrArg Stimulus.edge (opWord_eq_add_data false true true _ v),
      congrArg Stimulus.edge (opWord_eq_add_data false true true _ v)⟩
  · obtain ⟨w', hencode, hdecode⟩ := exists_canonical w
    exact ⟨w', hencode, fun s => by rw [hdecode]⟩

/-- Settles O4: from a live state, or by a RESET word in any state, a decoded word's effect is the field-by-field step. -/
theorem decodedWordRunsStepFunction : Obligations.DecodedWordRunsStepFunction := by
  intro s w h
  have hlive : (s.live || opRst w) = true := Bool.or_eq_true_iff.2 h
  have hexec : exec (decodeOp w) s = .next (effect (decodeOp w) s) := by
    obtain hs | hrst := h
    · exact exec_of_live hs _
    · rw [show decodeOp w = .reset from if_pos hrst]; rfl
  rw [hexec, effect_decodeOp, hlive]

/-- Settles O2: each mask keeps the fields its row fixes. -/
theorem decoderFollowsOperationMap : Obligations.DecoderFollowsOperationMap :=
  ⟨fun w => ⟨decodeOp_eq_reset_iff w, decodeOp_eq_no_store_iff w false, decodeOp_eq_store_iff w false false,
    decodeOp_eq_store_iff w false true, decodeOp_eq_no_store_iff w true, decodeOp_eq_store_iff w true false,
    decodeOp_eq_store_iff w true true, decodeOp_not_read w⟩, decodeRd_rows⟩

/-- Settles O47: the tick is the first edge, and the NOPs after it hold what it left. -/
theorem tickPeriodLeavesWhatTickLeaves : Obligations.TickPeriodLeavesWhatTickLeaves := by
  intro k s hlive
  have htick := exec_of_live hlive .tick
  have hnops := runTrace_nops (effect_live hlive .tick) k
  refine ⟨_, { final := effect .tick s, pins := List.replicate (k + 1) _ }, htick, ?_, rfl, rfl⟩
  simp only [expand, runTrace, htick, hnops]
  rfl

/-- Settles O3: nine words of 95_test_vectors.md 2.1, decoded. -/
theorem testVectorWordsDecode : Obligations.TestVectorWordsDecode := by
  unfold Obligations.TestVectorWordsDecode
  decide

end

/-! The store operations (40_store.md R49 to R53), each said once for both channels: SETA and SETB are `setFor`, GETA and
GETB are `getFor`. -/

namespace Sys2Proof.Laws

open Sys2Proof.Machine Sys2Proof.Safety

theorem otherChannel_ne (ch : Channel) : otherChannel ch ≠ ch := by
  cases ch <;> decide

/-- A canonical word, its data added to its control bits, decodes to the operation of its fields (R44, R45). -/
theorem decodeOp_add_data (rst tick wrEn ch : Bool) (v : Thr) :
    decodeOp (opWord rst tick wrEn (BitVec.ofBool ch) 0#8 + v.setWidth 12) = instrOfFields rst tick wrEn ch v := by
  rw [← opWord_eq_add_data, decodeOp_opWord]

/-- SET writes the entry and nothing else (R50, R51). -/
theorem exec_setFor {s : State} (h : s.live = true) (ch : Channel) (v : Thr) :
    exec (setFor ch v) s = .next { s with regs := storeWrite ch v s.regs } := by
  cases ch <;> exact exec_of_live h _

/-- GET moves the line `rd_ch` and nothing else (R52, R53; log 6). -/
theorem exec_getFor {s : State} (h : s.live = true) (ch : Channel) :
    exec (getFor ch) s = .next { s with rdCh := ch } := by
  rw [exec_of_live h, effect_getFor]

/-- GET shows the entry as it stands, and a second GET finds the line where the first has put it (R52, R53). -/
theorem getFor_shows_entry {s : State} (h : s.live = true) (ch : Channel) :
    ∃ t, exec (getFor ch) s = .next t ∧ rdData t = storeRead ch s.regs ∧ t = { s with rdCh := ch } ∧
      exec (getFor ch) t = .next t :=
  ⟨{ s with rdCh := ch }, exec_getFor h ch, rfl, rfl, exec_getFor (s := { s with rdCh := ch }) h ch⟩

/-- Right after RESET a GET shows 0 (R24, R52, R53). -/
theorem getFor_after_reset (ch : Channel) (s : State) :
    ∃ r, runTrace [.reset, getFor ch] s = .next r ∧ rdData r.final = 0#8 := by
  refine ⟨_, runTrace_reset [getFor ch] s, ?_⟩
  simp only [List.foldl_cons, List.foldl_nil, effect_getFor]
  cases ch <;> rfl

end Sys2Proof.Laws

section

open Sys2Proof Sys2Proof.Machine Sys2Proof.Safety Sys2Proof.Laws

/-- Settles O26: an operation's next state is its effect, and each clause is the law of what the effect keeps. -/
theorem everyOperationKeepsItsFrame : Obligations.EveryOperationKeepsItsFrame := by
  intro i s t hexec
  obtain ⟨rfl, -⟩ := exec_next hexec
  refine ⟨effect_feed i s, effect_drawn i s, fun ha hb => effect_rdCh_kept ha hb s, fun hi => effect_live_eq hi s,
    fun hi htick => ?_, fun ch hi hstore => storeRead_effect_kept hi hstore s, fun ch v hstore => ?_⟩
  · have hout := fun ch => outReg_effect_kept hi htick ch s
    exact ⟨effect_pos_kept hi htick s, hout .a, hout .b⟩
  · have hother := storesTo_other hstore (otherChannel_ne ch)
    exact ⟨storeRead_effect_stored hstore s, storeRead_effect_kept (ne_reset_of_storesTo hstore) hother s⟩

/-- Settles O17: the canonical word decodes to SETA, which is the write to entry A. -/
theorem setaWritesThresholdA : Obligations.SetaWritesThresholdA := by
  intro s v hlive
  have hdec : decodeOp (0x200#12 + v.setWidth 12) = .seta v := decodeOp_add_data false false true false v
  rw [hdec]
  exact ⟨exec_setFor hlive .a v, exec_setFor hlive .a v⟩

/-- Settles O18: the canonical word decodes to SETB, which is the write to entry B. -/
theorem setbWritesThresholdB : Obligations.SetbWritesThresholdB := by
  intro s v hlive
  have hdec : decodeOp (0x300#12 + v.setWidth 12) = .setb v := decodeOp_add_data false false true true v
  rw [hdec]
  exact ⟨exec_setFor hlive .b v, exec_setFor hlive .b v⟩

/-- Settles O19: GETA is the read of entry A, and the read word 0 is its canonical word. -/
theorem getaShowsThresholdA : Obligations.GetaShowsThresholdA :=
  fun s hlive => ⟨getFor_shows_entry hlive .a, decode_encode .geta, getFor_after_reset .a s⟩

/-- Settles O20: GETB is the read of entry B, and the read word 1 is its canonical word. -/
theorem getbShowsThresholdB : Obligations.GetbShowsThresholdB :=
  fun s hlive => ⟨getFor_shows_entry hlive .b, decode_encode .getb, getFor_after_reset .b s⟩

end

/-! The waveform (41_cycle_driver.md R66, R67): where the position stands after a run, and how many of its ticks leave a
channel active. Positions are carried as `x mod 100` for a number `x` that does not wrap. -/

namespace Sys2Proof.Laws

open Sys2Proof.Machine Sys2Proof.Safety

/-! ### The position over a run (R12, R66) -/

/-- An operation but RESET moves the position on by the ticks it contains (R12). -/
theorem effect_pos_mod {i : Instr} (hi : i ≠ .reset) {s : State} {x : Nat} (hpos : s.regs.pos.toNat = x % 100) :
    (effect i s).regs.pos.toNat = (x + if hasTick i then 1 else 0) % 100 := by
  cases htick : hasTick i with
  | true =>
    have hlt : s.regs.pos.toNat < 100 := hpos ▸ Nat.mod_lt x (by decide)
    have hnext := nextPos_toNat_of_lt Config.build build_legal hlt
    rw [effect_pos_of_tick htick, hnext, hpos, build_cycleLength, Nat.mod_add_mod]
    rfl
  | false => rw [effect_pos_kept hi htick, hpos]; rfl

/-- A run without a reset moves the position on by the ticks it contains (R66). -/
theorem runTrace_pos_mod {is : List Instr} (his : ∀ i ∈ is, i ≠ .reset) {s : State} {r : RunResult} {x : Nat}
    (hpos : s.regs.pos.toNat = x % 100) (hrun : runTrace is s = .next r) :
    r.final.regs.pos.toNat = (x + countTicks is) % 100 := by
  induction is generalizing s r x with
  | nil => cases hrun; exact hpos
  | cons i is ih =>
    obtain ⟨t, r', hexec, hrest, rfl⟩ := runTrace_cons hrun
    obtain ⟨rfl, -⟩ := exec_next hexec
    rw [List.forall_mem_cons] at his
    obtain ⟨hi, his⟩ := his
    rw [ih his (effect_pos_mod hi hpos) hrest, countTicks_cons, Nat.add_assoc, Nat.add_comm (countTicks is)]

/-! ### When a channel is active, in numbers (R56, R57) -/

/-- This build's comparator, with the clamp as a minimum (R56, R57). -/
theorem active_build_iff (p : Pos) (t : Thr) : active Config.build p t = true ↔ p.toNat ≤ min t.toNat 99 := by
  rw [active_iff, clamp_toNat _ build_legal]
  rfl

/-- After a tick a channel is at the active level exactly when the new position is at most the clamped threshold from
before the edge (R20, R67). -/
theorem outReg_effect_eq_zero_iff {i : Instr} (h : hasTick i = true) (ch : Channel) (s : State) :
    outReg ch (effect i s).regs = 0#1 ↔ (effect i s).regs.pos.toNat ≤ min (storeRead ch s.regs).toNat 99 := by
  rw [outReg_effect_of_tick h, ← active_build_iff]
  exact level_eq_activeLevel Config.build _

/-- Threshold `t` makes a channel active at position `x mod 100` (R67). -/
abbrev ActiveAt (t : Thr) (x : Nat) : Prop := x % 100 ≤ min t.toNat 99

/-- A cycle has `min(t, 99) + 1` active positions: 0 up to the clamped threshold (R67). -/
theorem count_activeAt_cycle (t : Thr) : Nat.count (ActiveAt t) 100 = min t.toNat 99 + 1 := by
  have hactive : ∀ x < min t.toNat 99 + 1, ActiveAt t x := fun x hx => by simp only [ActiveAt]; omega
  have hinactive : ∀ k < 99 - min t.toNat 99, ¬ ActiveAt t (min t.toNat 99 + 1 + k) := fun k hk => by
    simp only [ActiveAt]; omega
  calc Nat.count (ActiveAt t) 100
      = Nat.count (ActiveAt t) (min t.toNat 99 + 1 + (99 - min t.toNat 99)) := congrArg _ (by omega)
    _ = min t.toNat 99 + 1 := by
      rw [Nat.count_add, Nat.count_of_forall hactive, Nat.count_of_forall_not hinactive, Nat.add_zero]

/-- From any number on, the next 100 go through one cycle (R66). -/
theorem count_activeAt_add_cycle (t : Thr) (x : Nat) :
    Nat.count (ActiveAt t) (x + 100) = Nat.count (ActiveAt t) x + (min t.toNat 99 + 1) := by
  rw [Nat.count_add', count_activeAt_cycle]
  simp only [ActiveAt, Nat.add_mod_right]

/-! ### Counting active ticks (R67) -/

/-- A threshold held over a run is held at its end (R67). -/
theorem storeRead_runTrace_held {ch : Channel} {v : Thr} {is : List Instr} (his : ∀ i ∈ is, holdsAt ch v i)
    {s : State} {r : RunResult} (hs : storeRead ch s.regs = v) (hrun : runTrace is s = .next r) :
    storeRead ch r.final.regs = v :=
  runTrace_keeps (P := fun t => storeRead ch t.regs = v)
    (fun i hi _ ht => (storeRead_effect_held (ht ▸ his i hi)).trans ht) hs hrun

/-- The ticks of a run from position `x mod 100` take it through the numbers after `x`, and the channel is active after
those whose number is: the count of them up to the run's start and the count within the run make the count up to its
end. -/
theorem activeTicks_add_count {ch : Channel} {v : Thr} {is : List Instr} (his : ∀ i ∈ is, holdsAt ch v i)
    {s : State} {x : Nat} (hlive : s.live = true) (hthr : storeRead ch s.regs = v)
    (hpos : s.regs.pos.toNat = x % 100) :
    activeTicks ch is s + Nat.count (ActiveAt v) (x + 1) = Nat.count (ActiveAt v) (x + 1 + countTicks is) := by
  induction is generalizing s x with
  | nil => exact Nat.zero_add _
  | cons i is ih =>
    rw [List.forall_mem_cons] at his
    obtain ⟨hi, his⟩ := his
    have hthr' : storeRead ch (effect i s).regs = v := (storeRead_effect_held (hthr ▸ hi)).trans hthr
    have hpos' := effect_pos_mod hi.1 hpos
    have hrest := ih his (effect_live hlive i) hthr' hpos'
    rw [activeTicks_cons hlive, countTicks_cons]
    cases htick : hasTick i with
    | false =>
      simp only [htick, Bool.false_eq_true, if_false, false_and, Nat.add_zero, Nat.zero_add] at hrest ⊢
      exact hrest
    | true =>
      have hout : outPin ch (effect i s) = 0#1 ↔ ActiveAt v (x + 1) := by
        rw [outPin, outReg_effect_eq_zero_iff htick, hthr, hpos', htick]
        rfl
      simp only [htick, if_true, true_and, hout, Nat.count_succ _ (x + 1)] at hrest ⊢
      rw [show x + 1 + (countTicks is + 1) = x + 1 + 1 + countTicks is by omega, ← hrest]
      omega

/-- Of 100 ticks that hold the threshold `min(t, 99) + 1` leave the channel active, wherever they begin (R67). -/
theorem activeTicks_of_cycle {ch : Channel} {is : List Instr} {s : State} (hlive : s.live = true)
    (hpos : s.regs.pos.toNat < 100) (his : ∀ i ∈ is, holdsAt ch (storeRead ch s.regs) i)
    (hticks : countTicks is = 100) : activeTicks ch is s = min (storeRead ch s.regs).toNat 99 + 1 := by
  have hcount := activeTicks_add_count his hlive rfl (Nat.mod_eq_of_lt hpos).symm
  rw [hticks, count_activeAt_add_cycle] at hcount
  omega

/-! ### The pins of a run (R96) -/

/-- A run records one pair of levels per edge. -/
theorem length_pinsOf (is : List Instr) (s : State) : (pinsOf is s).length = (is.map edges).sum := by
  induction is generalizing s with
  | nil => rfl
  | cons i is ih =>
    rw [pinsOf, List.length_append, ih, pinsAfter, List.length_replicate, List.map_cons, List.sum_cons]

/-- An operation that contains a tick records the pins it leaves, once. -/
theorem pinsAfter_of_tick {i : Instr} (h : hasTick i = true) (s : State) :
    pinsAfter i s = [(outPin .a s, outPin .b s)] := by
  cases i with
  | tick | tseta _ | tsetb _ => rfl
  | reset | nop | seta _ | setb _ | geta | getb => cases h

theorem pinLevel_outPin (ch : Channel) (s : State) : pinLevel ch (outPin .a s, outPin .b s) = outPin ch s := by
  cases ch <;> rfl

/-- Where every operation contains a tick, the pins record the active level once per active tick. -/
theorem count_pinsOf_ticks {is : List Instr} (his : ∀ i ∈ is, hasTick i = true) (ch : Channel) {s : State}
    (hlive : s.live = true) : ((pinsOf is s).map (pinLevel ch)).count 0#1 = activeTicks ch is s := by
  induction is generalizing s with
  | nil => rfl
  | cons i is ih =>
    rw [List.forall_mem_cons] at his
    obtain ⟨hi, his⟩ := his
    rw [pinsOf, pinsAfter_of_tick hi, activeTicks_cons hlive, List.singleton_append, List.map_cons,
      pinLevel_outPin, List.count_cons, ih his (effect_live hlive i), Nat.add_comm]
    simp only [hi, true_and, beq_iff_eq]

end Sys2Proof.Laws

section

open Sys2Proof Sys2Proof.Machine Sys2Proof.Safety Sys2Proof.Laws

/-- Settles O39: the run moves the position on by its ticks, modulo 100. -/
theorem cycleClosure : Obligations.CycleClosure := by
  intro is s hlive hlt his
  have hrun := runTrace_of_live is hlive
  have hpos := runTrace_pos_mod his (Nat.mod_eq_of_lt hlt).symm hrun
  refine ⟨_, hrun, hpos, fun hcount => ?_, fun hcount0 hcount hsame => ?_⟩
  · apply BitVec.eq_of_toNat_eq
    rw [hpos, hcount, Nat.add_mod_right, Nat.mod_eq_of_lt hlt]
  · rw [hsame] at hpos
    omega

/-- Settles O41: 100 ticks go once through the cycle, which has `min(t, 99) + 1` active positions, and TICKs at
consecutive edges leave one record each. -/
theorem dutyCycleIsThresholdPlusOne : Obligations.DutyCycleIsThresholdPlusOne := by
  intro s ch hlive hlt
  refine ⟨fun is his => activeTicks_of_cycle hlive hlt his, fun is j his _ htick => ?_, ?_⟩
  · obtain ⟨r, r', hrun, hrun', hfinal⟩ := runTrace_concat hlive is j
    refine ⟨r', hrun', ?_⟩
    rw [hfinal, outPin, outReg_effect_eq_zero_iff htick, storeRead_runTrace_held his rfl hrun]
  · have hticks : ∀ i ∈ List.replicate 100 Instr.tick, i = .tick := fun _ => List.eq_of_mem_replicate
    refine ⟨_, runTrace_of_live _ hlive, length_pinsOf _ s, ?_⟩
    rw [count_pinsOf_ticks (fun i hi => by rw [hticks i hi]; rfl) ch hlive]
    refine activeTicks_of_cycle hlive hlt (fun i hi => ?_) (countTicks_ticks 100)
    rw [hticks i hi]
    exact ⟨nofun, .inl rfl⟩

end

/-! Channel independence (41_cycle_driver.md R69): what reaches a channel's output is the position and the channel's own
threshold, so an operation may differ in its write to the other entry. -/

namespace Sys2Proof.Laws

open Sys2Proof.Machine Sys2Proof.Safety

/-- Two register files that channel `ch` cannot tell apart: its view is the position, its output and its threshold. -/
structure SameView (ch : Channel) (r r' : Regs) : Prop where
  /-- The positions agree. -/
  pos : r'.pos = r.pos
  /-- The channel's outputs agree. -/
  out : outReg ch r' = outReg ch r
  /-- The channel's thresholds agree. -/
  thr : storeRead ch r' = storeRead ch r

/-- An operation's effect on a channel's view depends on the view, on whether it ticks and on what it stores to that
channel's entry. -/
theorem sameView_effect {ch : Channel} {i j : Instr} (hi : i ≠ .reset) (hj : j ≠ .reset)
    (htick : hasTick j = hasTick i) (hstore : storesTo ch j = storesTo ch i) {s s' : State}
    (h : SameView ch s.regs s'.regs) : SameView ch (effect i s).regs (effect j s').regs := by
  have hpos : (effect j s').regs.pos = (effect i s).regs.pos := by
    cases hti : hasTick i with
    | true => rw [effect_pos_of_tick hti, effect_pos_of_tick (htick.trans hti), h.pos]
    | false => rw [effect_pos_kept hi hti, effect_pos_kept hj (htick.trans hti), h.pos]
  refine ⟨hpos, ?_, ?_⟩
  · cases hti : hasTick i with
    | true => rw [outReg_effect_of_tick hti, outReg_effect_of_tick (htick.trans hti), hpos, h.thr]
    | false => rw [outReg_effect_kept hi hti, outReg_effect_kept hj (htick.trans hti), h.out]
  · cases hsi : storesTo ch i with
    | some v => rw [storeRead_effect_stored hsi, storeRead_effect_stored (hstore.trans hsi)]
    | none => rw [storeRead_effect_kept hi hsi, storeRead_effect_kept hj (hstore.trans hsi), h.thr]

/-! ### An operation with its write to one entry left out -/

theorem hasTick_withoutStore (ch : Channel) (i : Instr) : hasTick (withoutStore ch i) = hasTick i := by
  cases i <;> cases ch <;> rfl

theorem storesTo_other_withoutStore (ch : Channel) (i : Instr) :
    storesTo (otherChannel ch) (withoutStore ch i) = storesTo (otherChannel ch) i := by
  cases i <;> cases ch <;> rfl

theorem withoutStore_ne_reset {i : Instr} (h : i ≠ .reset) (ch : Channel) : withoutStore ch i ≠ .reset := by
  cases i with
  | reset => exact absurd rfl h
  | nop | seta _ | setb _ | tick | tseta _ | tsetb _ | geta | getb => cases ch <;> exact nofun

/-- Leaving out the write to one entry does not show in the other channel's view (R69). -/
theorem sameView_withoutStore (ch : Channel) (i : Instr) {s s' : State}
    (h : SameView (otherChannel ch) s.regs s'.regs) :
    SameView (otherChannel ch) (effect i s).regs (effect (withoutStore ch i) s').regs := by
  by_cases hi : i = .reset
  · subst hi; exact ⟨rfl, rfl, rfl⟩
  · exact sameView_effect hi (withoutStore_ne_reset hi ch) (hasTick_withoutStore ch i)
      (storesTo_other_withoutStore ch i) h

/-- Nor does it in a run of operations. -/
theorem sameView_foldl_withoutStore (ch : Channel) (is : List Instr) (s : State) :
    SameView (otherChannel ch) (is.foldl (fun t i => effect i t) s).regs
      ((is.map (withoutStore ch)).foldl (fun t i => effect i t) s).regs := by
  rw [List.foldl_map]
  exact List.foldl_rel (r := fun t t' : State => SameView (otherChannel ch) t.regs t'.regs) ⟨rfl, rfl, rfl⟩
    fun i _ _ _ => sameView_withoutStore ch i

end Sys2Proof.Laws

section

open Sys2Proof Sys2Proof.Machine Sys2Proof.Safety Sys2Proof.Laws

/-- Settles O46: the other channel's view is the same in the run and in the run without the writes. -/
theorem channelsAreIndependent : Obligations.ChannelsAreIndependent := by
  intro is s ch hlive
  obtain ⟨hpos, hout, hthr⟩ := sameView_foldl_withoutStore ch is s
  exact ⟨_, _, runTrace_of_live is hlive, runTrace_of_live _ hlive, hpos, hout, hthr⟩

end

/-! The pure functions and the tick on the registers, for every legal build (41_cycle_driver.md R55 to R59, R66). -/

namespace Sys2Proof.Laws

open Sys2Proof.Machine Sys2Proof.Safety

/-- At the end of the cycle and on the unreachable patterns the successor is 0 (R55). -/
theorem nextPos_of_last_le {c : Config} {p : Pos} (h : c.cycleLength - 1 ≤ p.toNat) : nextPos c p = 0#7 := if_pos h

/-- A threshold within the cycle is its own clamp (R56). -/
theorem clamp_of_le {c : Config} {t : Thr} (h : t.toNat ≤ c.cycleLength - 1) : clamp c t = t :=
  if_neg (Nat.not_lt.2 h)

/-- On the positions of a cycle the clamp changes no comparison (R59). -/
theorem le_clamp_iff {c : Config} (hc : c.Legal) {p : Pos} (hp : p.toNat < c.cycleLength) (t : Thr) :
    p.toNat ≤ (clamp c t).toNat ↔ p.toNat ≤ t.toNat := by
  rw [clamp_toNat c hc]
  omega

/-- On the positions of a cycle a channel is active exactly up to its stored threshold (R57, R59). -/
theorem active_iff_le {c : Config} (hc : c.Legal) {p : Pos} (hp : p.toNat < c.cycleLength) (t : Thr) :
    active c p t = true ↔ p.toNat ≤ t.toNat := (active_iff c p t).trans (le_clamp_iff hc hp t)

/-- A tick changes no threshold (R56, R82). -/
@[simp] theorem storeRead_tickRegs (c : Config) (ch : Channel) (r : Regs) :
    storeRead ch (tickRegs c r) = storeRead ch r := by
  cases ch <;> rfl

/-- After a tick the output is active exactly when the comparator is (R57, R58, R61). -/
theorem outReg_tickRegs_eq_activeLevel (c : Config) (ch : Channel) (r : Regs) :
    outReg ch (tickRegs c r) = c.activeLevel ↔ active c (nextPos c r.pos) (storeRead ch r) = true := by
  rw [outReg_tickRegs, level_eq_activeLevel]

/-! ### Polarity (R58) -/

/-- The two levels are 1 and 0, in either order (R5, R58). -/
theorem inactiveLevel_eq (c : Config) : c.inactiveLevel = 1#1 - c.activeLevel := by
  unfold Config.inactiveLevel
  generalize c.activeLevel = l
  revert l
  decide

/-- The other polarity exchanges the levels (R58). -/
theorem level_other_polarity (n : Nat) (l : Level) (a : Bool) :
    level { cycleLength := n, activeLevel := 1#1 - l } a =
      1#1 - level { cycleLength := n, activeLevel := l } a := by
  cases a
  · have hinactive := inactiveLevel_eq { cycleLength := n, activeLevel := l }
    exact (inactiveLevel_eq _).trans (congrArg (1#1 - ·) hinactive.symm)
  · rfl

/-- The comparator's answer can be read off the level (R58). -/
theorem level_inj {c : Config} {a b : Bool} : level c a = level c b ↔ a = b := by
  refine ⟨fun h => ?_, congrArg _⟩
  rw [Bool.eq_iff_iff, ← level_eq_activeLevel c a, ← level_eq_activeLevel c b, h]

/-! ### The ticks of a cycle (R66) -/

/-- From a position of the cycle, `k` ticks advance the counter by `k` modulo CYCLE_LENGTH. -/
theorem iterate_tickRegs_pos {c : Config} (hc : c.Legal) {r : Regs} (hr : r.pos.toNat < c.cycleLength) (k : Nat) :
    ((tickRegs c)^[k] r).pos.toNat = (r.pos.toNat + k) % c.cycleLength := by
  induction k with
  | zero => exact (Nat.mod_eq_of_lt hr).symm
  | succ k ih =>
    have hlt : ((tickRegs c)^[k] r).pos.toNat < c.cycleLength := ih ▸ Nat.mod_lt _ (Nat.zero_lt_of_lt hr)
    rw [Function.iterate_succ_apply', tickRegs_pos, nextPos_toNat_of_lt c hc hlt, ih, Nat.mod_add_mod, Nat.add_assoc]

end Sys2Proof.Laws

section

open Sys2Proof Sys2Proof.Machine Sys2Proof.Safety Sys2Proof.Laws

/-- Settles O8, from the successor in numbers. -/
theorem successorOfAPosition : Obligations.SuccessorOfAPosition := by
  refine ⟨fun c p hc => ⟨nextPos_of_last_le, fun hp => ?_, nextPos_toNat_of_lt c hc, nextPos_lt c hc p⟩,
    by decide, by decide, fun p hp => ?_⟩
  · rw [nextPos_toNat c hc, if_neg (Nat.not_le.2 hp)]
  · exact nextPos_of_last_le (Nat.le_of_succ_le hp)

/-- Settles O9: the clamp is a minimum, and a tick compares with it and keeps the store. -/
theorem clampIsMinimumAndStoreIsKept : Obligations.ClampIsMinimumAndStoreIsKept := by
  intro c hc
  refine ⟨fun t => ⟨fun ht => ?_, clamp_of_le⟩, fun r ch => ⟨storeRead_tickRegs c ch r, ?_⟩⟩
  · rw [clamp_toNat c hc, Nat.min_eq_right ht.le]
  · rw [outReg_tickRegs_eq_activeLevel, active_iff]

/-- Settles O10: on the positions of a cycle the comparison is with the stored threshold. -/
theorem comparatorIsInclusive : Obligations.ComparatorIsInclusive := by
  intro c p t hc
  refine ⟨active_iff c p t, fun hp heq => (active_iff_le hc hp t).2 heq.le, fun hp => ?_⟩
  rw [← Bool.not_eq_true, active_iff_le hc hp, Nat.not_le]

/-- Settles O11: polarity enters only through the level mapping and the inactive level of the reset values. -/
theorem polarityOnlyExchangesLevels : Obligations.PolarityOnlyExchangesLevels := by
  refine ⟨fun c => ⟨rfl, rfl, inactiveLevel_eq c⟩, rfl, build_inactiveLevel, fun n l r => ⟨?_, ?_⟩⟩
  · have hout := fun ch => level_other_polarity n l
      (active { cycleLength := n } (nextPos { cycleLength := n } r.pos) (storeRead ch r))
    exact congrArg₂ (fun x y => withOutputs x y (tickRegs { cycleLength := n, activeLevel := l } r))
      (hout .a) (hout .b)
  · have hout := level_other_polarity n l false
    exact congrArg (fun x => withOutputs x x (Regs.reset { cycleLength := n, activeLevel := l })) hout

/-- Settles O12: a position of the cycle is at most CYCLE_LENGTH − 1, so the minimum with it decides nothing. -/
theorem clampIsUnobservable : Obligations.ClampIsUnobservable :=
  fun _ _ t hc hp => le_clamp_iff hc hp t

/-- Settles O40, by induction on the number of ticks. -/
theorem everyBuildClosesItsCycle : Obligations.EveryBuildClosesItsCycle :=
  fun _ _ k hc hr => iterate_tickRegs_pos hc hr k

end

/-! The operations that contain a tick, each in every live state (41_cycle_driver.md R61 to R64, R68): TSETA and TSETB
are `tickSetFor`. -/

namespace Sys2Proof.Laws

open Sys2Proof.Machine Sys2Proof.Safety

/-- TICK advances and derives, and nothing else (R61). -/
theorem exec_tick {s : State} (h : s.live = true) :
    exec .tick s = .next { s with regs := tickRegs Config.build s.regs } := exec_of_live h .tick

/-- TICK+SET ticks on the thresholds before the edge and writes its entry (R62 to R64). -/
theorem exec_tickSetFor {s : State} (h : s.live = true) (ch : Channel) (v : Thr) :
    exec (tickSetFor ch v) s = .next { s with regs := storeWrite ch v (tickRegs Config.build s.regs) } := by
  cases ch <;> exact exec_of_live h _

/-- A run of two operations ends with the effect of the second on that of the first. -/
theorem runTrace_pair {s : State} (h : s.live = true) (i j : Instr) :
    ∃ r, runTrace [i, j] s = .next r ∧ r.final = effect j (effect i s) :=
  ⟨_, runTrace_of_live [i, j] h, rfl⟩

theorem effect_setFor (ch : Channel) (v : Thr) (s : State) :
    effect (setFor ch v) s = { s with regs := storeWrite ch v s.regs } := by
  cases ch <;> rfl

/-- A write before a tick and the same write after it leave the same exactly when the comparator answers alike for the
old and the new threshold (R62). -/
theorem tickRegs_storeWrite_eq_iff (c : Config) (ch : Channel) (v : Thr) (r : Regs) :
    tickRegs c (storeWrite ch v r) = storeWrite ch v (tickRegs c r) ↔
      active c (nextPos c r.pos) v = active c (nextPos c r.pos) (storeRead ch r) := by
  rw [← level_inj (c := c)]
  cases ch <;> simp [tickRegs, storeWrite]

end Sys2Proof.Laws

section

open Sys2Proof Sys2Proof.Machine Sys2Proof.Safety Sys2Proof.Laws

/-- Settles O24: on the positions of a cycle the successor is one modulo 100 and the clamp decides nothing. -/
theorem tickInPlainNumbers : Obligations.TickInPlainNumbers := by
  intro s hlive hlt
  have hout := fun ch => (outReg_tickRegs_eq_activeLevel Config.build ch s.regs).trans
    (active_iff_le build_legal (nextPos_lt Config.build build_legal s.regs.pos) _)
  exact ⟨_, exec_tick hlive, nextPos_toNat_of_lt Config.build build_legal hlt, rfl, rfl, hout .a, hout .b⟩

/-- Settles O25: the write and the tick commute but for the threshold the tick compares with. -/
theorem coincidingWriteIsTickThenSet : Obligations.CoincidingWriteIsTickThenSet := by
  intro s ch v hlive
  obtain ⟨r, hrun, hfinal⟩ := runTrace_pair hlive .tick (setFor ch v)
  obtain ⟨r', hrun', hfinal'⟩ := runTrace_pair hlive (setFor ch v) .tick
  rw [effect_setFor] at hfinal hfinal'
  refine ⟨_, r, r', exec_tickSetFor hlive ch v, hrun, hfinal, hrun', ?_⟩
  have hcommute := tickRegs_storeWrite_eq_iff Config.build ch v s.regs
  rw [hfinal', storeWrite_pos, tickRegs_pos]
  exact not_congr (Iff.trans ⟨congrArg State.regs, congrArg fun r => { s with regs := r }⟩ hcommute)

/-- Settles O42: at position 0 every threshold is active, and the position after the threshold is past it. -/
theorem pulsesRiseTogetherAndFallAfterThreshold : Obligations.PulsesRiseTogetherAndFallAfterThreshold := by
  intro s ch hlive hlt
  have hexec := exec_of_live hlive .tick
  have hnext : (effect .tick s).regs.pos.toNat = (s.regs.pos.toNat + 1) % 100 :=
    nextPos_toNat_of_lt Config.build build_legal hlt
  have hout := fun c => outReg_effect_eq_zero_iff (i := .tick) rfl c s
  refine ⟨_, hexec, fun hlast => ?_, fun hthr hpos => ?_, fun hthr => ?_⟩
  · have hzero : (effect .tick s).regs.pos = 0#7 := by
      apply BitVec.eq_of_toNat_eq
      rw [hnext, hlast]
      rfl
    refine ⟨hzero, (hout .a).2 ?_, (hout .b).2 ?_⟩ <;> rw [hzero] <;> exact Nat.zero_le _
  · have hstep : (effect .tick s).regs.pos.toNat = (storeRead ch s.regs).toNat + 1 := by omega
    have hoff : outPin ch (effect .tick s) ≠ 0#1 := fun h => by
      have := (hout ch).1 h
      omega
    exact ⟨hstep, (BitVec.eq_zero_or_eq_one _).resolve_left hoff⟩
  · exact (hout ch).2 (by omega)

/-- Settles O21: the words of TICK's row decode to TICK, which is the tick event. -/
theorem tickAdvancesThenDerives : Obligations.TickAdvancesThenDerives := by
  refine fun s hlive => ⟨exec_tick hlive, fun w hw => ?_⟩
  have hdec : decodeOp w = .tick := (decodeOp_eq_no_store_iff w true).2 hw
  rw [hdec]

/-- Settles O22: the canonical word decodes to TSETA, which is TICK+SET of entry A. -/
theorem tsetaTicksWithOldThresholds : Obligations.TsetaTicksWithOldThresholds :=
  fun s v hlive => ⟨exec_tickSetFor hlive .a v,
    congrArg (exec · s) (decodeOp_add_data false true true false v)⟩

/-- Settles O23: the canonical word decodes to TSETB, which is TICK+SET of entry B. -/
theorem tsetbTicksWithOldThresholds : Obligations.TsetbTicksWithOldThresholds :=
  fun s v hlive => ⟨exec_tickSetFor hlive .b v,
    congrArg (exec · s) (decodeOp_add_data false true true true v)⟩

end

/-! RESET and NOP (42_system.md R71, R72): RESET's words and the first tick after it; NOPs drop out of a run. -/

namespace Sys2Proof.Laws

open Sys2Proof.Machine

/-- With `rst` = 1 all other bits of the word are ignored (R71, R79). -/
theorem decodeOp_of_rst {w : OpWord} (h : w.getLsbD 11 = true) : decodeOp w = .reset := if_pos h

/-- The effect of RESET with the register values of this build written out (R24, R71). -/
theorem effect_reset (s : State) :
    effect .reset s = { s with regs := ⟨0#7, 0#8, 0#8, 1#1, 1#1⟩, live := true } := rfl

/-- A second RESET finds what it would write (R71). -/
theorem effect_reset_reset (s : State) : effect .reset (effect .reset s) = effect .reset s := rfl

/-- The first tick after RESET leaves position 1 (R71). -/
theorem effect_tick_reset_pos (s : State) : (effect .tick (effect .reset s)).regs.pos = 1#7 := by
  rw [effect_pos_of_tick rfl, effect_reset_regs]
  decide

/-- At position 1 the reset thresholds are passed: the first tick leaves both outputs inactive (R57, R71). -/
theorem outReg_effect_tick_reset (ch : Channel) (s : State) :
    outReg ch (effect .tick (effect .reset s)).regs = 1#1 := by
  rw [outReg_effect_of_tick rfl, effect_tick_reset_pos, effect_reset_regs]
  cases ch <;> decide

/-- A run's effects are those of the run without its NOPs, each of which leaves the state it finds (R72). -/
theorem foldl_effect_filter_ne_nop (is : List Instr) (s : State) :
    (is.filter (fun i => i ≠ .nop)).foldl (fun t i => effect i t) s = is.foldl (fun t i => effect i t) s := by
  have hskip : ∀ (t : State) (i : Instr), (if decide (i ≠ .nop) then effect i t else t) = effect i t := by
    intro t i
    by_cases hi : i = .nop
    · subst hi; rfl
    · exact if_pos (decide_eq_true hi)
  simp only [List.foldl_filter, hskip]

end Sys2Proof.Laws

section

open Sys2Proof Sys2Proof.Machine Sys2Proof.Safety Sys2Proof.Laws

/-- Settles O16: the words of NOP's row decode to NOP, and a run's final state is the fold of its effects, to which a
NOP adds nothing. -/
theorem nopChangesNothing : Obligations.NopChangesNothing := by
  intro s hlive
  have hnop : exec .nop s = .next s := exec_of_live hlive .nop
  refine ⟨hnop, fun w hw => ?_, fun is => ?_⟩
  · have hdec : decodeOp w = .nop := (decodeOp_eq_no_store_iff w false).2 hw
    rw [hdec, hnop]
  · exact ⟨_, _, runTrace_of_live is hlive, runTrace_of_live _ hlive, foldl_effect_filter_ne_nop is s⟩

/-- Settles O14: RESET's effect is unconditional, and the tick after it counts to 1 past both thresholds. -/
theorem resetCompletes : Obligations.ResetCompletes := by
  intro s
  have hreset : exec .reset (effect .reset s) = .next (effect .reset s) := by rw [exec_reset, effect_reset_reset]
  refine ⟨by rw [exec_reset, effect_reset], fun w hw => by rw [decodeOp_of_rst hw], ?_⟩
  exact ⟨effect .reset s, effect .tick (effect .reset s), exec_reset s, hreset, exec_of_live rfl .tick,
    effect_tick_reset_pos s, outReg_effect_tick_reset .a s, outReg_effect_tick_reset .b s⟩

end

/-! What cannot go wrong and who may write (60_exceptions.md R74, R75, R77, R82): a live machine goes on for ever, a
threshold past the cycle's end or never written still has its meaning, and each register has its only writers. -/

namespace Sys2Proof.Laws

open Sys2Proof.Machine Sys2Proof.Safety

/-- Once a RESET has been executed every operation gives a next state, live again (R25, R74). -/
theorem exec_live_next {s : State} (h : s.live = true) (i : Instr) : ∃ t, exec i s = .next t ∧ t.live = true :=
  ⟨effect i s, exec_of_live h i, effect_live h i⟩

/-- Whatever the environment presents, a step from a live state gives a next state, live again (R74, R96). -/
theorem step_live_next {s : State} (h : s.live = true) : ∃ t, step s = .next t ∧ t.live = true :=
  exec_live_next ((sample_regs_live s).2.trans h) (sample s).1

/-- A live machine runs for every number of steps (R96). -/
theorem core_run_live_next (n : Nat) {s : State} (h : s.live = true) :
    ∃ t, core.run n s = .next t ∧ t.live = true := by
  induction n generalizing s with
  | zero => exact ⟨s, rfl, h⟩
  | succ n ih =>
    obtain ⟨t, hstep, hlive⟩ := step_live_next h
    obtain ⟨u, hrun, hlive'⟩ := ih hlive
    exact ⟨u, (core_run_succ (M := core) hstep n).trans hrun, hlive'⟩

/-- A tick leaves a channel active at every position of the cycle if its threshold is the last position or more
(R56, R75). -/
theorem outReg_effect_eq_zero_of_last_le {i : Instr} (h : hasTick i = true) {ch : Channel} {s : State}
    (hthr : 99 ≤ (storeRead ch s.regs).toNat) : outReg ch (effect i s).regs = 0#1 := by
  have hpos : (effect i s).regs.pos.toNat < 100 := by
    rw [effect_pos_of_tick h]
    exact nextPos_lt Config.build build_legal s.regs.pos
  exact (outReg_effect_eq_zero_iff h ch s).2 (by omega)

/-- This build's comparator sees every threshold from 99 on as 99 (R56). -/
theorem clamp_build_of_last_le {t : Thr} (h : 99 ≤ t.toNat) : clamp Config.build t = 99#8 := by
  apply BitVec.eq_of_toNat_eq
  rw [clamp_toNat Config.build build_legal]
  exact min_eq_right h

/-- After one TICK or more, from position `x mod 100`, a channel is active exactly when its threshold makes it active at
the position they reach (R61, R66). -/
theorem outPin_ticks_eq_zero_iff {s : State} (hlive : s.live = true) {x k : Nat}
    (hpos : s.regs.pos.toNat = x % 100) (ch : Channel) {r : RunResult}
    (hrun : runTrace (List.replicate (k + 1) .tick) s = .next r) :
    outPin ch r.final = 0#1 ↔ ActiveAt (storeRead ch s.regs) (x + (k + 1)) := by
  have hreset : Instr.tick ≠ .reset := nofun
  have hend := runTrace_pos_mod (List.forall_mem_replicate.2 (.inr hreset)) hpos hrun
  rw [countTicks_ticks] at hend
  obtain ⟨r₀, r₁, hinit, hall, hfinal⟩ := runTrace_concat hlive (List.replicate k .tick) .tick
  rw [← List.replicate_succ', hrun] at hall
  cases hall
  have hthr : storeRead ch r₀.final.regs = storeRead ch s.regs :=
    storeRead_runTrace_kept (List.forall_mem_replicate.2 (.inr ⟨hreset, rfl⟩)) hinit
  rw [outPin, hfinal, outReg_effect_eq_zero_iff rfl, ← hfinal, hend, hthr]

end Sys2Proof.Laws

section

open Sys2Proof Sys2Proof.Machine Sys2Proof.Safety Sys2Proof.Laws

/-- Settles O33: no operation stops a live machine or makes it unreset, so by induction no number of steps does. -/
theorem liveMachineNeverStops : Obligations.LiveMachineNeverStops :=
  fun _ hlive => ⟨exec_live_next hlive, fun n => core_run_live_next n hlive⟩

/-- Settles O27: the frame of the operations, read the other way round: what changed had its writer. -/
theorem eachRegisterHasItsOnlyWriter : Obligations.EachRegisterHasItsOnlyWriter := by
  intro i s t hexec
  obtain ⟨-, -, -, -, hkept, hentry, hstored⟩ := everyOperationKeepsItsFrame i s t hexec
  by_cases hreset : i = .reset
  · exact ⟨fun _ => .inr hreset, fun _ _ => .inr hreset⟩
  refine ⟨fun hchanged => .inl ?_, fun ch hchanged => .inl ?_⟩
  · by_contra htick
    obtain ⟨hpos, houtA, houtB⟩ := hkept hreset (Bool.eq_false_of_not_eq_true htick)
    exact hchanged.elim (· hpos) (Or.elim · (· houtA) (· houtB))
  · cases hstore : storesTo ch i with
    | none => exact absurd (hentry ch hreset hstore) hchanged
    | some v => rw [(hstored ch v hstore).1]

/-- Settles O38: the store keeps the value as written, and the ticks that find it compare with the last position. -/
theorem outOfRangeThresholdIsAlwaysActive : Obligations.OutOfRangeThresholdIsAlwaysActive := by
  intro ch v w s hlive hv hw
  have hlast : 99 ≤ v.toNat := by omega
  refine ⟨?_, fun is j his htick => ?_, clamp_build_of_last_le hlast⟩
  · obtain ⟨r, hrun, hread, -⟩ := readShowsTheLatestWrite ch v w [] s hlive hw nofun
    exact ⟨r, hrun, hread⟩
  · obtain ⟨r, t, hrun, hfinal, hstored⟩ := runTrace_concat_after_store hlive hw his j
    refine ⟨r, hrun, ?_⟩
    rw [hfinal]
    exact outReg_effect_eq_zero_of_last_le htick (hstored ▸ hlast)

/-- Settles O45: RESET leaves position 0, both thresholds 0 and both outputs inactive, and `k` ticks later the position
is `k mod 100`, which a threshold of 0 admits only as 0. -/
theorem unsetThresholdBehavesAsZero : Obligations.UnsetThresholdBehavesAsZero := by
  intro s ch k
  refine ⟨_, runTrace_reset _ s, ?_⟩
  cases k with
  | zero =>
    have hout : outPin ch (effect .reset s) = 1#1 := by cases ch <;> rfl
    simp [hout]
  | succ k =>
    have hthr : storeRead ch (effect .reset s).regs = 0#8 := by cases ch <;> rfl
    have hticks := runTrace_of_live (List.replicate (k + 1) .tick) (s := effect .reset s) rfl
    have hout := outPin_ticks_eq_zero_iff rfl (x := 0) rfl ch hticks
    rw [hthr] at hout
    simpa [ActiveAt] using hout

end

/-! Reset, timing and the order of writes (70_reset_and_hazards.md R87, R91, R92, R94, R96): TICKs after a run that leaves a
position of the cycle and thresholds, and the edges that words and runs take. -/

namespace Sys2Proof.Laws

open Sys2Proof.Machine Sys2Proof.Safety

/-- Runs one after the other are one run, with the records of both (R96). -/
theorem runTrace_append {is js : List Instr} {s : State} {r r' : RunResult} (hrun : runTrace is s = .next r)
    (hrun' : runTrace js r.final = .next r') :
    runTrace (is ++ js) s = .next { final := r'.final, pins := r.pins ++ r'.pins } := by
  induction is generalizing s r with
  | nil => cases hrun; exact hrun'
  | cons i is ih =>
    obtain ⟨t, r₀, hexec, hrest, rfl⟩ := runTrace_cons hrun
    simp only [List.cons_append, runTrace, hexec, ih hrest hrun', List.append_assoc]

/-- A run that ends live at position `x mod 100`, and `k` TICKs after it: the position is `k` further on, and from the
first TICK on each channel is active exactly when its threshold makes it active there (R60, R61, R66). -/
theorem runTrace_then_ticks {is : List Instr} {s : State} {r : RunResult} (hrun : runTrace is s = .next r)
    (hlive : r.final.live = true) {x : Nat} (hpos : r.final.regs.pos.toNat = x % 100) (k : Nat) :
    ∃ q, runTrace (is ++ List.replicate k .tick) s = .next q ∧ q.final.regs.pos.toNat = (x + k) % 100 ∧
      (k = 0 → q.final = r.final) ∧
      (0 < k → ∀ ch, outPin ch q.final = 0#1 ↔ ActiveAt (storeRead ch r.final.regs) (x + k)) := by
  have hticks := runTrace_of_live (List.replicate k .tick) hlive
  have hreset : Instr.tick ≠ .reset := nofun
  have hend := runTrace_pos_mod (List.forall_mem_replicate.2 (.inr hreset)) hpos hticks
  rw [countTicks_ticks] at hend
  refine ⟨_, runTrace_append hrun hticks, hend, ?_, fun hk ch => ?_⟩
  · rintro rfl; rfl
  · obtain ⟨n, rfl⟩ := Nat.exists_eq_add_one.2 hk
    have hout := outPin_ticks_eq_zero_iff hlive hpos ch hticks
    exact hout

/-- A pin that is not at this build's active level is at the inactive one (R58). -/
theorem outPin_eq_one_iff (ch : Channel) (s : State) : outPin ch s = 1#1 ↔ outPin ch s ≠ 0#1 :=
  ⟨fun h => by rw [h]; decide, (BitVec.eq_zero_or_eq_one _).resolve_left⟩

/-- A TICK that leaves a position past the threshold leaves the channel inactive (R61, R91). -/
theorem outPin_effect_tick_of_thr_lt {ch : Channel} {s : State}
    (hlt : (storeRead ch s.regs).toNat < (effect .tick s).regs.pos.toNat) : outPin ch (effect .tick s) = 1#1 := by
  rw [outPin_eq_one_iff, outPin, Ne, outReg_effect_eq_zero_iff rfl]
  omega

/-- Every operation but a read takes one edge (R47, R94). -/
theorem edges_of_not_read {i : Instr} (ha : i ≠ .geta) (hb : i ≠ .getb) : edges i = 1 := by
  cases i with
  | geta => exact absurd rfl ha
  | getb => exact absurd rfl hb
  | reset | nop | seta _ | setb _ | tick | tseta _ | tsetb _ => rfl

/-- An RD word takes no edge: it decodes to a read (R42, R94). -/
theorem edges_decodeRd (w : RdWord) : edges (decodeRd w) = 0 := by
  unfold decodeRd
  cases channelOfBit (w.getLsbD 0) <;> rfl

end Sys2Proof.Laws

section

open Sys2Proof Sys2Proof.Machine Sys2Proof.Safety Sys2Proof.Laws

/-- Settles O43: RESET and the two writes leave position 0, the thresholds written and both outputs inactive, and the
TICKs go on from there. -/
theorem firstCycleAfterReset : Obligations.FirstCycleAfterReset := by
  intro s a b k
  have hinit : runTrace [.reset, .seta a, .setb b] s = .next
      { final := { s with regs := ⟨0#7, a, b, 1#1, 1#1⟩, live := true },
        pins := [(1#1, 1#1), (1#1, 1#1), (1#1, 1#1)] } := rfl
  obtain ⟨q, hrun, hpos, hzero, hout⟩ := runTrace_then_ticks hinit rfl (x := 0) rfl k
  rw [Nat.zero_add] at hpos hout
  have hactive (t : Thr) : ActiveAt t k ↔ k % 100 ≤ t.toNat := by
    have := Nat.mod_lt k (show 0 < 100 by decide)
    simp only [ActiveAt]
    omega
  refine ⟨q, hrun, hpos, fun hk => ?_, fun hk => ?_⟩
  · rw [hzero hk]
    exact ⟨rfl, rfl⟩
  · exact ⟨(hout hk .a).trans (hactive a), (hout hk .b).trans (hactive b)⟩

/-- Settles O44: the TICK before the SET compared with the old threshold, the SET writes the entry alone, and the TICKs
after it compare with the new threshold. -/
theorem midCycleChangeGivesSecondPulse : Obligations.MidCycleChangeGivesSecondPulse := by
  intro s ch v hlive hlt hold hnew
  refine ⟨fun u hexec => ?_, fun k => ?_⟩
  · obtain ⟨rfl, -⟩ := exec_next hexec
    rw [storeRead_effect_kept (i := .tick) nofun rfl] at hold
    exact outPin_effect_tick_of_thr_lt hold
  · have hset := runTrace_of_live [setFor ch v] hlive
    simp only [List.foldl_cons, List.foldl_nil, effect_setFor] at hset
    have hpos : (storeWrite ch v s.regs).pos.toNat = s.regs.pos.toNat % 100 := by
      rw [storeWrite_pos, Nat.mod_eq_of_lt hlt]
    obtain ⟨q, hrun, -, hzero, hout⟩ := runTrace_then_ticks hset hlive hpos k
    have hactive (hk : 0 < k) : outPin ch q.final = 0#1 ↔ (s.regs.pos.toNat + k) % 100 ≤ min v.toNat 99 := by
      rw [hout hk ch, storeRead_storeWrite_same]
    refine ⟨q, hrun, fun hk => ?_, fun hk hupto => ?_, fun hafter hend => ?_, fun hwrap => hactive (by omega)⟩
    · rw [hzero hk]
      exact outReg_storeWrite ch ch v s.regs
    · rw [hactive hk]
      omega
    · have hk : 0 < k := by omega
      rw [outPin_eq_one_iff, Ne, hactive hk]
      omega

/-- Settles O48: no OP word decodes to a read and every RD word does, and a run records the pins once per edge. -/
theorem everyOpWordTakesOneEdge : Obligations.EveryOpWordTakesOneEdge := by
  refine ⟨fun w => ?_, edges_decodeRd, fun is s hlive => ⟨_, runTrace_of_live is hlive, length_pinsOf is s⟩⟩
  obtain ⟨ha, hb⟩ := decodeOp_not_read w
  exact edges_of_not_read ha hb

end
